-- ==== Sys2Proof/Word.lean ====
section
/-! DEFINITION. The word and character types of the core. -/

namespace Sys2Proof

/-- The one datum width of the core: memory cells, general registers, the PC and the instruction word
(00_scope.md R3). `BitVec` addition wraps modulo 65536, as R11 says `+` on words does. -/
abbrev Word := BitVec 16

/-- An 8-bit character at the host character ports (00_scope.md R3 and R12). -/
abbrev Byte := BitVec 8

/-- A general register number, 0 to 7 for R0 to R7 (10_state.md R31). -/
abbrev RegIdx := Fin 8

end Sys2Proof
end

