-- ==== Sys2Proof/Config.lean ====
section
/-! DEFINITION. The parameters of the core: the fixed ones of 00_scope.md R9 that are numbers of the model, and the
named ones of R10 that a step reads. The named ones are plain data; a machine carries its own copy in `State.params`,
no step changes it, and so every statement over all states is a statement over all parameter values (log entry 1).
The spec's defaults are `Machine.defaultParams`. The launch parameters of R10 (RESET_GPR, RESET_COND, RESET_PC,
INITIAL_MEM) are read by no step; they are the arguments of `Machine.State.initial`. -/

namespace Sys2Proof

/-- MEM_WORDS of 00_scope.md R9: addresses 0x0000 to 0xFFFF. -/
abbrev memWords : Nat := 65536

/-- The named parameters of 00_scope.md R10 that the rules of a step read. -/
structure Params where
  /-- KBSR_ADDR (92 D5). -/
  kbsrAddr : Word
  /-- KBDR_ADDR (92 D5). -/
  kbdrAddr : Word
  /-- KBSR_READY (92 D6). -/
  kbsrReady : Word
  /-- IN_PROMPT (92 D19). -/
  inPrompt : List Byte
  /-- IN_ECHO (92 D20). -/
  inEcho : Bool
  /-- HALT_NOTICE (92 D21). -/
  haltNotice : List Byte
  /-- JSRR_LINK_FIRST (92 D12). -/
  jsrrLinkFirst : Bool
  /-- TRAP_LINKS_R7 (92 D13). -/
  trapLinksR7 : Bool
  deriving DecidableEq, Repr

/-- What 00_scope.md R10 and 20_memory.md R62 require of the parameters: two different keyboard addresses, and a
ready value with bit 15 set. -/
abbrev Params.wf (p : Params) : Prop :=
  p.kbsrAddr ≠ p.kbdrAddr ∧ p.kbsrReady.msb = true

end Sys2Proof
end

