-- ==== Sys2Proof/Machine/Memory.lean ====
section
/-! DEFINITION. The word memory MEM (20_memory.md R60): a list of (address, word) cells in one canonical form. A cell
holds a 16-bit word because a word is the smallest thing an address names (log entry 3). -/

namespace Sys2Proof.Machine

/-- One word of memory at an address. -/
abbrev Cell := Nat × Word

/-- MEM, as the cells whose word is not the unlisted word. -/
abbrev Memory := List Cell

namespace Memory

/-- What an unlisted address reads as: MEM is "Created zero-filled at VM start" (20_memory.md R60). -/
def unlisted : Word := 0x0000#16

/-- The word at an address, with no side effect: `PlainRead` of 20_memory.md R65. -/
def read : Memory → Nat → Word
  | [], _ => unlisted
  | (k, w) :: m, a => if k = a then w else read m a

/-- The memory with the word at one address replaced, in canonical form. -/
def write : Memory → Nat → Word → Memory
  | [], a, v => if v = unlisted then [] else [(a, v)]
  | (k, w) :: m, a, v =>
    if a < k then
      if v = unlisted then (k, w) :: m else (a, v) :: (k, w) :: m
    else if a = k then
      if v = unlisted then m else (a, v) :: m
    else (k, w) :: write m a v

/-- The canonical form: addresses strictly rising, every address one of the 65536, no cell holding the unlisted
word. -/
abbrev wf (m : Memory) : Prop :=
  m.Pairwise (fun c d => c.1 < d.1) ∧ ∀ c ∈ m, c.1 < memWords ∧ c.2 ≠ unlisted

/-- Words written one after another from an address up; those past the last address are not loaded
(70_reset_and_hazards.md R302, 92 D33). -/
def load : Memory → Nat → List Word → Memory
  | m, _, [] => m
  | m, a, w :: ws => if a < memWords then load (write m a w) (a + 1) ws else m

end Memory

end Sys2Proof.Machine
end

