-- ==== Sys2Proof/Machine/Numbers.lean ====
section
/-! DEFINITION. Every number the source leaves out and the spec supplies from general knowledge of the LC-3
(93_implementation_defined.md G2, G5 to G10), each in one definition, with the default values of the named
parameters (00_scope.md R10). -/

namespace Sys2Proof

/-! Opcode numbers, IR[15:12] (30_encoding.md R91). -/

abbrev opBR : BitVec 4 := 0x0#4
abbrev opADD : BitVec 4 := 0x1#4
abbrev opLD : BitVec 4 := 0x2#4
abbrev opST : BitVec 4 := 0x3#4
abbrev opJSR : BitVec 4 := 0x4#4
abbrev opAND : BitVec 4 := 0x5#4
abbrev opLDR : BitVec 4 := 0x6#4
abbrev opSTR : BitVec 4 := 0x7#4
abbrev opRTI : BitVec 4 := 0x8#4
abbrev opNOT : BitVec 4 := 0x9#4
abbrev opLDI : BitVec 4 := 0xA#4
abbrev opSTI : BitVec 4 := 0xB#4
abbrev opJMP : BitVec 4 := 0xC#4
abbrev opRES : BitVec 4 := 0xD#4
abbrev opLEA : BitVec 4 := 0xE#4
abbrev opTRAP : BitVec 4 := 0xF#4

/-! Trap vectors (30_encoding.md R98). -/

abbrev vecGETC : BitVec 8 := 0x20#8
abbrev vecOUT : BitVec 8 := 0x21#8
abbrev vecPUTS : BitVec 8 := 0x22#8
abbrev vecIN : BitVec 8 := 0x23#8
abbrev vecPUTSP : BitVec 8 := 0x24#8
abbrev vecHALT : BitVec 8 := 0x25#8

namespace Machine

/-! COND bit layout (10_state.md R36). -/

abbrev condN : BitVec 3 := 0b100#3
abbrev condZ : BitVec 3 := 0b010#3
abbrev condP : BitVec 3 := 0b001#3

/-- The default IN_PROMPT, "Enter a character: " (92 D19). -/
def defaultPrompt : List Byte :=
  [0x45#8, 0x6E#8, 0x74#8, 0x65#8, 0x72#8, 0x20#8, 0x61#8, 0x20#8, 0x63#8, 0x68#8, 0x61#8, 0x72#8, 0x61#8, 0x63#8,
    0x74#8, 0x65#8, 0x72#8, 0x3A#8, 0x20#8]

/-- The default HALT_NOTICE, "HALT" then 0x0A (92 D21). -/
def defaultHaltNotice : List Byte := [0x48#8, 0x41#8, 0x4C#8, 0x54#8, 0x0A#8]

/-- The default of every named parameter a step reads (00_scope.md R10). -/
def defaultParams : Params where
  kbsrAddr := 0xFE00#16
  kbdrAddr := 0xFE02#16
  kbsrReady := 0x8000#16
  inPrompt := defaultPrompt
  inEcho := true
  haltNotice := defaultHaltNotice
  jsrrLinkFirst := true
  trapLinksR7 := false

/-- The default RESET_GPR: all registers 0x0000 (92 D7). -/
def defaultResetGpr : Vector Word 8 := Vector.replicate 8 0x0000#16

/-- The default RESET_COND: no flag set (92 D8). -/
def defaultResetCond : BitVec 3 := 0b000#3

/-- RESET_PC where no image is named: the conventional origin (70 R303, 92 D9; log entry 4). -/
def defaultResetPc : Word := 0x3000#16

end Machine

end Sys2Proof
end

