-- ==== Sys2Proof/Machine/State.lean ====
section
/-! DEFINITION. The state of the core (10_state.md R30), the two host streams and the stop request it meets at its
ports (40_cycle.md R120), the parameters it runs with, and the reasons a step can stop. All plain data. -/

namespace Sys2Proof.Machine

/-- The fault kinds of 60_exceptions.md R271. -/
inductive FaultKind where
  /-- Code 1: RES. -/
  | reservedOpcode
  /-- Code 2: RTI. -/
  | unimplementedRTI
  /-- Code 3: a PUTS or PUTSP scan would pass 0xFFFF. -/
  | trapScanOverrun
  deriving DecidableEq, Repr

/-- FAULT = (kind, address, word) (10_state.md R39). -/
structure FaultRecord where
  kind : FaultKind
  address : Word
  word : Word
  deriving DecidableEq, Repr

/-- STATUS (10_state.md R38). FAULT is held in the one status in which it means anything (R39; log entry 5). -/
inductive Status where
  | running
  | halted
  | faulted (fault : FaultRecord)
  | interrupted
  deriving DecidableEq, Repr

/-- WAIT, the input-wait sub-state of the trap dispatcher (10_state.md R44). -/
inductive Wait where
  | none
  | getcWait
  | inWait
  deriving DecidableEq, Repr

/-- The machine's state. -/
structure State where
  /-- MEM, with KBSR and KBDR in it as ordinary words (20_memory.md R60, R62). -/
  mem : Memory
  /-- R0 to R7 (10_state.md R31). -/
  regs : Vector Word 8
  /-- PC (10_state.md R34). -/
  pc : Word
  /-- COND, bits N, Z, P from the high bit down (10_state.md R36). -/
  cond : BitVec 3
  /-- STATUS with FAULT (10_state.md R38, R39). -/
  status : Status
  /-- WAIT (10_state.md R44). -/
  wait : Wait
  /-- A host stop request is pending (60_exceptions.md R275). -/
  stopRequest : Bool
  /-- The host's input queue, oldest character first (40_cycle.md R120). -/
  input : List Byte
  /-- The input characters the core has consumed, first one taken first (40_cycle.md R127; log entry 21). -/
  consumed : List Byte
  /-- The host's output stream, first character written first (40_cycle.md R120). -/
  output : List Byte
  /-- The parameters this machine runs with; no step changes them (00_scope.md R10, log entry 1). -/
  params : Params
  deriving DecidableEq, Repr

/-- Why there is no step. No instruction ends in one of these: they say that the Run Loop has no step to take. -/
inductive Fault where
  /-- STATUS is not Running: "no step -- the run has ended" (40_cycle.md R121). Raised by `step`. Safe: no state
  follows, as the spec says. -/
  | runEnded
  /-- WAIT is not None and the host has no character: "hold" (40_cycle.md R125). Raised by `completeInputWait`.
  Safe: the engine has no step until the host acts; a host action on the same state lets it go on. -/
  | inputHold
  deriving DecidableEq, Repr

/-- Why an instruction has no meaning. -/
inductive Refusal where
  /-- The instruction has no meaning in this model. Raised by `exec` alone, for an arm not yet written; safe. No arm
  raises it now. -/
  | notModelled (mnemonic : String)
  deriving DecidableEq, Repr

/-- The state before the first step, from the launch parameters and the memory the loader left (10_state.md R43,
70_reset_and_hazards.md R300 to R304). -/
def State.initial (p : Params) (gpr : Vector Word 8) (cond : BitVec 3) (pc : Word) (mem : Memory) : State where
  mem := mem
  regs := gpr
  pc := pc
  cond := cond
  status := .running
  wait := .none
  stopRequest := false
  input := []
  consumed := []
  output := []
  params := p

/-- The machine right after reset, every parameter at its default and no image in memory (10_state.md R43; log
entries 1 and 4). -/
def State.reset : State :=
  State.initial defaultParams defaultResetGpr defaultResetCond defaultResetPc []

end Sys2Proof.Machine
end

