-- ==== Sys2Proof/Machine/Ops.lean ====
section
/-! DEFINITION. The shared operations on registers, memory, the host ports and the run status that the meanings are
written in. -/

namespace Sys2Proof.Machine

namespace State

/-! ## Registers (10_state.md R31, R34, R35) -/

/-- `R[r]`. -/
def reg (s : State) (r : RegIdx) : Word := s.regs[r]

/-- `R[r] <- v`. No register is hard-wired (10_state.md R31). -/
def setReg (s : State) (r : RegIdx) (v : Word) : State := { s with regs := s.regs.set r v }

/-- `pc <- v`. -/
def setPc (s : State) (v : Word) : State := { s with pc := v }

/-- `COND <- c`. -/
def setCond (s : State) (c : BitVec 3) : State := { s with cond := c }

/-! ## Memory (20_memory.md R65 to R67) -/

/-- `PlainRead(a)`. -/
def plainRead (s : State) (a : Word) : Word := s.mem.read a.toNat

/-- `MemWrite(a, 1, v)`: plain at every address, the two keyboard registers among them. -/
def memWrite (s : State) (a v : Word) : State := { s with mem := s.mem.write a.toNat v }

/-- `HostRead()` when `c` is the oldest character and `rest` what stays queued: `c` is removed from the queue and is the
last of the characters consumed (40_cycle.md R120, R127). -/
def hostRead (s : State) (c : Byte) (rest : List Byte) : State :=
  { s with input := rest, consumed := s.consumed ++ [c] }

/-- The non-blocking keyboard poll of the bridge: KBSR is set or cleared, and a pending character is moved into KBDR
and consumed (20_memory.md R66). -/
def poll (s : State) : State :=
  match s.input with
  | c :: rest =>
    ((s.memWrite s.params.kbsrAddr s.params.kbsrReady).memWrite s.params.kbdrAddr (c.setWidth 16)).hostRead c rest
  | [] => s.memWrite s.params.kbsrAddr 0x0000#16

/-- The state a `MemRead(a, 1)` leaves: polled first when `a` is KBSR_ADDR, otherwise the same (20_memory.md R66). -/
def afterRead (s : State) (a : Word) : State := if a = s.params.kbsrAddr then s.poll else s

/-- The word `MemRead(a, 1)` returns: the one at `a` after the poll, if there is one (20_memory.md R66). -/
def memRead (s : State) (a : Word) : Word := (s.afterRead a).plainRead a

/-! ## Host output (40_cycle.md R120) -/

/-- `HostWrite` of each character in order. -/
def hostWrite (s : State) (cs : List Byte) : State := { s with output := s.output ++ cs }

/-! ## Faults (60_exceptions.md R270)

`raiseFault` is the core's one exception entry. It saves the faulting address and word in FAULT and ends the run;
there is no vector, no handler, no saved status and no mode (R270, R280), and no return: RTI is itself a fault
(R278). -/

/-- `raise Fault(kind, address = PC - 1, word)`. -/
def raiseFault (s : State) (kind : FaultKind) (word : Word) : State :=
  { s with status := .faulted { kind := kind, address := s.pc - 1, word := word } }

/-! ## Fetch, and the other two things a step can begin with (40_cycle.md R121, R122, R125) -/

/-- The word the fetch reads, through the bridge (40_cycle.md R122). -/
def fetchWord (s : State) : Word := s.memRead s.pc

/-- The state the fetch leaves: the poll of a fetch from KBSR_ADDR done, and PC one further modulo 65536. -/
def afterFetch (s : State) : State := (s.afterRead s.pc).setPc (s.pc + 1)

/-- A pending stop request is taken: STATUS becomes Interrupted "and nothing else changes" (60_exceptions.md R275;
log entry 6). -/
def takeStop (s : State) : State := { s with status := .interrupted }

/-- `complete_input_wait()` once the host has a character `c`, `rest` being what stays queued (40_cycle.md R125). -/
def inputArrived (s : State) (c : Byte) (rest : List Byte) : State :=
  { ((s.hostRead c rest).hostWrite (if s.wait = .inWait ∧ s.params.inEcho = true then [c] else [])).setReg 0
      (c.setWidth 16) with
    wait := .none }

end State

/-- The code of a fault kind (60_exceptions.md R271). No program can read it (92 D28). -/
def FaultKind.code : FaultKind → Nat
  | .reservedOpcode => 1
  | .unimplementedRTI => 2
  | .trapScanOverrun => 3

/-- `complete_input_wait()`: a hold while the host has no character (40_cycle.md R125). -/
def completeInputWait (s : State) : Host.Outcome State Fault Refusal :=
  match s.input with
  | [] => .fault .inputHold
  | c :: rest => .next (s.inputArrived c rest)

end Sys2Proof.Machine
end

