-- ==== Sys2Proof/Machine/Flags.lean ====
section
/-! DEFINITION. The condition flags: `setcc` (10_state.md R35) and BR's test (42_control.md R160). No other flag exists
(41_operate.md R139). -/

namespace Sys2Proof.Machine

/-- The COND value that `setcc(v)` writes (10_state.md R35). -/
def condOf (v : Word) : BitVec 3 :=
  if v = 0x0000#16 then condZ else if v.msb then condN else condP

/-- `R[dr] <- v; setcc(R[dr])`, the primary effect of ADD, AND, NOT, LD, LDI, LDR and LEA (10_state.md R37). -/
def State.setResult (s : State) (dr : RegIdx) (v : Word) : State := (s.setReg dr v).setCond (condOf v)

/-- `(IR[11:9] & COND) != 0`: BR is taken (42_control.md R160). -/
def State.branchTaken (s : State) (nzp : BitVec 3) : Bool := nzp &&& s.cond != 0#3

end Sys2Proof.Machine
end

