-- ==== Sys2Proof/Machine/Operands.lean ====
section
/-! DEFINITION. Operand forms: sign extension (00_scope.md R13) and the addressing modes (43_load.md R179). `s.pc` is
the fetch address plus one in all of them (40_cycle.md R122). -/

namespace Sys2Proof.Machine

/-- `sext_n(v)`: the n-bit two's-complement number `v` as a word (00_scope.md R13). -/
def sext {n : Nat} (v : BitVec n) : Word := v.signExtend 16

/-- `PC + sext(offset)`: PC-relative, for the 9-bit and the 11-bit offset (43_load.md R179, 42_control.md R160,
R166). -/
def State.pcRel {n : Nat} (s : State) (off : BitVec n) : Word := s.pc + sext off

/-- `R[BaseR] + sext_6(offset6)`: base plus offset (43_load.md R179). -/
def State.baseRel (s : State) (base : RegIdx) (off6 : BitVec 6) : Word := s.reg base + sext off6

/-- The indirect address of LDI and STI: the word that the bridge reads at the PC-relative address
(43_load.md R179, R183). -/
def State.indirect (s : State) (off9 : BitVec 9) : Word := s.memRead (s.pcRel off9)

/-- The low byte of a word, `w[7:0]`. -/
def lowByte (w : Word) : Byte := w.extractLsb' 0 8

/-- The high byte of a word, `w[15:8]`. -/
def highByte (w : Word) : Byte := w.extractLsb' 8 8

end Sys2Proof.Machine
end

