-- ==== Sys2Proof/Machine/Control.lean ====
section
/-! DEFINITION. BR, JMP, RET, JSR and JSRR (42_control.md). None writes COND. -/

namespace Sys2Proof.Machine

/-- BR (42_control.md R160). -/
def execBr (nzp : BitVec 3) (off9 : BitVec 9) (s : State) : Host.Outcome State Fault Refusal :=
  .next (if s.branchTaken nzp then s.setPc (s.pcRel off9) else s)

/-- JMP (42_control.md R163). -/
def execJmp (base : RegIdx) (s : State) : Host.Outcome State Fault Refusal :=
  .next (s.setPc (s.reg base))

/-- RET, which is JMP R7 (42_control.md R164). -/
def execRet (s : State) : Host.Outcome State Fault Refusal :=
  .next (s.setPc (s.reg 7))

/-- JSR (42_control.md R166). -/
def execJsr (off11 : BitVec 11) (s : State) : Host.Outcome State Fault Refusal :=
  .next ((s.setReg 7 s.pc).setPc (s.pcRel off11))

/-- JSRR; JSRR_LINK_FIRST says whether the base is read after or before R7 is written (42_control.md R168, R169). -/
def execJsrr (base : RegIdx) (s : State) : Host.Outcome State Fault Refusal :=
  let linked := s.setReg 7 s.pc
  .next (linked.setPc (if s.params.jsrrLinkFirst then linked.reg base else s.reg base))

end Sys2Proof.Machine
end

