-- ==== Sys2Proof/Syntax.lean ====
section
/-! DEFINITION. The instructions: one constructor per row of spec/opcode_table.json, with every field of the row, the
ignored bits among them (log entry 2). Fields are the unsigned bit slices of 30_encoding.md R92; a register field is
the number it names. -/

namespace Sys2Proof

/-- The 26 rows of the opcode table: 19 decode rows, then the 7 rows that name particular words of JMP and TRAP
(30_encoding.md R91, R94, R101). -/
inductive Instr where
  /-- ADD, register mode (41 R140). -/
  | addReg (dr sr1 : RegIdx) (ign : BitVec 2) (sr2 : RegIdx)
  /-- ADD, immediate mode (41 R140). -/
  | addImm (dr sr1 : RegIdx) (imm5 : BitVec 5)
  /-- AND, register mode (41 R143). -/
  | andReg (dr sr1 : RegIdx) (ign : BitVec 2) (sr2 : RegIdx)
  /-- AND, immediate mode (41 R143). -/
  | andImm (dr sr1 : RegIdx) (imm5 : BitVec 5)
  /-- NOT (41 R146). -/
  | not (dr sr : RegIdx) (ign : BitVec 6)
  /-- BR (42 R160); `nzp` holds n, z, p in bits 2, 1, 0 (30 R95). -/
  | br (nzp : BitVec 3) (off9 : BitVec 9)
  /-- JMP (42 R163). -/
  | jmp (ignHi : BitVec 3) (base : RegIdx) (ignLo : BitVec 6)
  /-- JSR (42 R166). -/
  | jsr (off11 : BitVec 11)
  /-- JSRR (42 R168). -/
  | jsrr (ignHi : BitVec 2) (base : RegIdx) (ignLo : BitVec 6)
  /-- LD (43 R180). -/
  | ld (dr : RegIdx) (off9 : BitVec 9)
  /-- LDI (43 R183). -/
  | ldi (dr : RegIdx) (off9 : BitVec 9)
  /-- LDR (43 R186). -/
  | ldr (dr base : RegIdx) (off6 : BitVec 6)
  /-- LEA (43 R189). -/
  | lea (dr : RegIdx) (off9 : BitVec 9)
  /-- ST (44 R200). -/
  | st (sr : RegIdx) (off9 : BitVec 9)
  /-- STI (44 R203). -/
  | sti (sr : RegIdx) (off9 : BitVec 9)
  /-- STR (44 R206). -/
  | str (sr base : RegIdx) (off6 : BitVec 6)
  /-- TRAP (45 R220). -/
  | trap (ign : BitVec 4) (vect : BitVec 8)
  /-- RTI (46 R262). -/
  | rti (ign : BitVec 12)
  /-- RES (46 R260). -/
  | res (ign : BitVec 12)
  /-- RET: JMP with BaseR = 7 (42 R164). -/
  | ret (ignHi : BitVec 3) (ignLo : BitVec 6)
  /-- GETC: the word 0xF020 (45 R222). -/
  | getc
  /-- OUT: the word 0xF021 (45 R224). -/
  | out
  /-- PUTS: the word 0xF022 (45 R226). -/
  | puts
  /-- IN: the word 0xF023 (45 R229). -/
  | inp
  /-- PUTSP: the word 0xF024 (45 R232). -/
  | putsp
  /-- HALT: the word 0xF025 (45 R236). -/
  | halt
  deriving DecidableEq, Repr

end Sys2Proof
end

