-- ==== Sys2Proof/WellFormed.lean ====
section
/-! DEFINITION. Which terms of `Instr` are the reading of a word. Field widths are in the types; what is left is that a
word which has a table row of its own (RET, and the six trap words) is written with that row's constructor
(30_encoding.md R101; log entry 2). -/

namespace Sys2Proof

/-- The six recognised trap vectors (30_encoding.md R98). -/
def isServiceVector (v : BitVec 8) : Bool :=
  v == vecGETC || v == vecOUT || v == vecPUTS || v == vecIN || v == vecPUTSP || v == vecHALT

/-- A term is well formed when it is what some word decodes to: JMP R7 is written `ret`, and a trap word that is
exactly one of 0xF020 to 0xF025 is written with its routine's own constructor. -/
def Instr.wf : Instr → Bool
  | .jmp _ base _ => base != 7
  | .trap ign vect => !(ign == 0#4 && isServiceVector vect)
  | .addReg .. | .addImm .. | .andReg .. | .andImm .. | .not .. | .br .. | .jsr .. | .jsrr ..
  | .ld .. | .ldi .. | .ldr .. | .lea .. | .st .. | .sti .. | .str .. | .rti .. | .res ..
  | .ret .. | .getc | .out | .puts | .inp | .putsp | .halt => true

end Sys2Proof
end

