-- ==== Sys2Proof/Decode.lean ====
section
/-! DEFINITION. The decoder (30_encoding.md R99) and, after it, the encoder, both written from the formats of R94. -/

namespace Sys2Proof

/-! ## Fields (30_encoding.md R92) -/

/-- `w[lo+len-1 : lo]`, the field of `len` bits from bit `lo` up (00_scope.md R11). -/
def field (w : Word) (lo len : Nat) : BitVec len := w.extractLsb' lo len

/-- The three-bit field from bit `lo` up, as the number of the register it names (30_encoding.md R92). -/
def regField (w : Word) (lo : Nat) : RegIdx := (field w lo 3).toFin

/-- IR[15:12] (30_encoding.md R90). -/
abbrev opcode (w : Word) : BitVec 4 := field w 12 4
/-- DR, and the source register SR of a store: IR[11:9]. -/
abbrev fieldDR (w : Word) : RegIdx := regField w 9
/-- SR1, SR of NOT, and BaseR: IR[8:6]. -/
abbrev fieldSR1 (w : Word) : RegIdx := regField w 6
/-- SR2: IR[2:0]. -/
abbrev fieldSR2 (w : Word) : RegIdx := regField w 0
/-- imm_flag: IR[5]. -/
abbrev fieldImmFlag (w : Word) : BitVec 1 := field w 5 1
/-- imm5: IR[4:0]. -/
abbrev fieldImm5 (w : Word) : BitVec 5 := field w 0 5
/-- offset6: IR[5:0]. -/
abbrev fieldOff6 (w : Word) : BitVec 6 := field w 0 6
/-- PCoffset9: IR[8:0]. -/
abbrev fieldOff9 (w : Word) : BitVec 9 := field w 0 9
/-- PCoffset11: IR[10:0]. -/
abbrev fieldOff11 (w : Word) : BitVec 11 := field w 0 11
/-- nzp: IR[11:9], n in the high bit (30_encoding.md R95). -/
abbrev fieldNzp (w : Word) : BitVec 3 := field w 9 3
/-- The JSR flag: IR[11]. -/
abbrev fieldJsrFlag (w : Word) : BitVec 1 := field w 11 1
/-- trapvect8: IR[7:0]. -/
abbrev fieldVect (w : Word) : BitVec 8 := field w 0 8

/-! ## The decoder -/

/-- JMP, or RET when BaseR is 7 (30_encoding.md R91). -/
def decodeJmp (w : Word) : Instr :=
  if fieldSR1 w = 7 then .ret (field w 9 3) (field w 0 6)
  else .jmp (field w 9 3) (fieldSR1 w) (field w 0 6)

/-- The row of an opcode-0xF word: its own row for the six words of 30_encoding.md R101, otherwise TRAP. -/
def decodeTrap (ign : BitVec 4) (vect : BitVec 8) : Instr :=
  if ign = 0#4 then
    if vect = vecGETC then .getc
    else if vect = vecOUT then .out
    else if vect = vecPUTS then .puts
    else if vect = vecIN then .inp
    else if vect = vecPUTSP then .putsp
    else if vect = vecHALT then .halt
    else .trap ign vect
  else .trap ign vect

/-- The decoder of 30_encoding.md R99: total, one word to one instruction. -/
def decode (w : Word) : Instr :=
  if opcode w = opADD then
    if fieldImmFlag w = 0#1 then .addReg (fieldDR w) (fieldSR1 w) (field w 3 2) (fieldSR2 w)
    else .addImm (fieldDR w) (fieldSR1 w) (fieldImm5 w)
  else if opcode w = opAND then
    if fieldImmFlag w = 0#1 then .andReg (fieldDR w) (fieldSR1 w) (field w 3 2) (fieldSR2 w)
    else .andImm (fieldDR w) (fieldSR1 w) (fieldImm5 w)
  else if opcode w = opNOT then .not (fieldDR w) (fieldSR1 w) (field w 0 6)
  else if opcode w = opBR then .br (fieldNzp w) (fieldOff9 w)
  else if opcode w = opJMP then decodeJmp w
  else if opcode w = opJSR then
    if fieldJsrFlag w = 1#1 then .jsr (fieldOff11 w) else .jsrr (field w 9 2) (fieldSR1 w) (field w 0 6)
  else if opcode w = opLD then .ld (fieldDR w) (fieldOff9 w)
  else if opcode w = opLDI then .ldi (fieldDR w) (fieldOff9 w)
  else if opcode w = opLDR then .ldr (fieldDR w) (fieldSR1 w) (fieldOff6 w)
  else if opcode w = opLEA then .lea (fieldDR w) (fieldOff9 w)
  else if opcode w = opST then .st (fieldDR w) (fieldOff9 w)
  else if opcode w = opSTI then .sti (fieldDR w) (fieldOff9 w)
  else if opcode w = opSTR then .str (fieldDR w) (fieldSR1 w) (fieldOff6 w)
  else if opcode w = opRES then .res (field w 0 12)
  else if opcode w = opRTI then .rti (field w 0 12)
  else decodeTrap (field w 8 4) (fieldVect w)

/-- Why no instruction can be read. Every word decodes (30_encoding.md R90), so the only ground is that there is no
whole word to read. -/
inductive DecodeReject where
  /-- The sequence of words is empty. -/
  | noWord
  /-- The bits given are more than one 16-bit word holds. -/
  | moreThanOneWord
  deriving DecidableEq, Repr

/-- Reads one instruction from the front of a sequence of words; a decoder always consumes exactly one
(30_encoding.md R90). -/
def decodeWords : List Word → Except DecodeReject (Instr × List Word)
  | [] => .error .noWord
  | w :: rest => .ok (decode w, rest)

/-- The instruction in the `nbits` low bits of `w`, the bits above them zero. -/
def decodeBits (nbits w : Nat) : Except DecodeReject Instr :=
  if nbits ≤ 16 ∧ w < 2 ^ nbits then .ok (decode (BitVec.ofNat 16 w)) else .error .moreThanOneWord

/-- The decoder's reading of an opcode-table word, bit 0 its least significant bit. An instruction is one word, so
there is no later word and no byte order to lay out. -/
def decodeTableWord (nbits w : Nat) : Option Instr :=
  match decodeBits nbits w with
  | .ok i => some i
  | .error _ => none

/-! ## The encoder -/

/-- A field's bits standing at bit `lo` and up of an otherwise zero word. -/
def place {n : Nat} (v : BitVec n) (lo : Nat) : Word := v.setWidth 16 <<< lo

/-- A register number in the three-bit field from bit `lo` up. -/
def placeReg (r : RegIdx) (lo : Nat) : Word := place (BitVec.ofFin r : BitVec 3) lo

/-- The word of an instruction: its opcode and fields at the positions of the format tables (30_encoding.md R94,
R101). -/
def encode : Instr → Word
  | .addReg dr sr1 ign sr2 => place opADD 12 ||| placeReg dr 9 ||| placeReg sr1 6 ||| place ign 3 ||| placeReg sr2 0
  | .addImm dr sr1 imm5 => place opADD 12 ||| placeReg dr 9 ||| placeReg sr1 6 ||| place 1#1 5 ||| place imm5 0
  | .andReg dr sr1 ign sr2 => place opAND 12 ||| placeReg dr 9 ||| placeReg sr1 6 ||| place ign 3 ||| placeReg sr2 0
  | .andImm dr sr1 imm5 => place opAND 12 ||| placeReg dr 9 ||| placeReg sr1 6 ||| place 1#1 5 ||| place imm5 0
  | .not dr sr ign => place opNOT 12 ||| placeReg dr 9 ||| placeReg sr 6 ||| place ign 0
  | .br nzp off9 => place opBR 12 ||| place nzp 9 ||| place off9 0
  | .jmp ignHi base ignLo => place opJMP 12 ||| place ignHi 9 ||| placeReg base 6 ||| place ignLo 0
  | .jsr off11 => place opJSR 12 ||| place 1#1 11 ||| place off11 0
  | .jsrr ignHi base ignLo => place opJSR 12 ||| place ignHi 9 ||| placeReg base 6 ||| place ignLo 0
  | .ld dr off9 => place opLD 12 ||| placeReg dr 9 ||| place off9 0
  | .ldi dr off9 => place opLDI 12 ||| placeReg dr 9 ||| place off9 0
  | .ldr dr base off6 => place opLDR 12 ||| placeReg dr 9 ||| placeReg base 6 ||| place off6 0
  | .lea dr off9 => place opLEA 12 ||| placeReg dr 9 ||| place off9 0
  | .st sr off9 => place opST 12 ||| placeReg sr 9 ||| place off9 0
  | .sti sr off9 => place opSTI 12 ||| placeReg sr 9 ||| place off9 0
  | .str sr base off6 => place opSTR 12 ||| placeReg sr 9 ||| placeReg base 6 ||| place off6 0
  | .trap ign vect => place opTRAP 12 ||| place ign 8 ||| place vect 0
  | .rti ign => place opRTI 12 ||| place ign 0
  | .res ign => place opRES 12 ||| place ign 0
  | .ret ignHi ignLo => place opJMP 12 ||| place ignHi 9 ||| placeReg 7 6 ||| place ignLo 0
  | .getc => place opTRAP 12 ||| place vecGETC 0
  | .out => place opTRAP 12 ||| place vecOUT 0
  | .puts => place opTRAP 12 ||| place vecPUTS 0
  | .inp => place opTRAP 12 ||| place vecIN 0
  | .putsp => place opTRAP 12 ||| place vecPUTSP 0
  | .halt => place opTRAP 12 ||| place vecHALT 0

end Sys2Proof
end

