-- ==== Sys2Proof/Machine/Fatal.lean ====
section
/-! DEFINITION. RES and RTI: the fatal handler (46_fatal.md). The fault is taken: a next state with STATUS Faulted, in
which no further step exists. -/

namespace Sys2Proof.Machine

/-- RES (46_fatal.md R260). -/
def execRes (ign : BitVec 12) (s : State) : Host.Outcome State Fault Refusal :=
  .next (s.raiseFault .reservedOpcode (encode (.res ign)))

/-- RTI (46_fatal.md R262). -/
def execRti (ign : BitVec 12) (s : State) : Host.Outcome State Fault Refusal :=
  .next (s.raiseFault .unimplementedRTI (encode (.rti ign)))

end Sys2Proof.Machine
end

