-- ==== Sys2Proof/Machine/Load.lean ====
section
/-! DEFINITION. LD, LDI, LDR and LEA (43_load.md). Every load reads through the bridge (20_memory.md R68). -/

namespace Sys2Proof.Machine

/-- `R[dr] <- MemRead(ea, 1); setcc(R[dr])`. -/
def State.loadFrom (s : State) (dr : RegIdx) (ea : Word) : State :=
  (s.afterRead ea).setResult dr (s.memRead ea)

/-- LD (43_load.md R180). -/
def execLd (dr : RegIdx) (off9 : BitVec 9) (s : State) : Host.Outcome State Fault Refusal :=
  .next (s.loadFrom dr (s.pcRel off9))

/-- LDI: both reads go through the bridge, the pointer's first (43_load.md R183). -/
def execLdi (dr : RegIdx) (off9 : BitVec 9) (s : State) : Host.Outcome State Fault Refusal :=
  .next ((s.afterRead (s.pcRel off9)).loadFrom dr (s.indirect off9))

/-- LDR (43_load.md R186). -/
def execLdr (dr base : RegIdx) (off6 : BitVec 6) (s : State) : Host.Outcome State Fault Refusal :=
  .next (s.loadFrom dr (s.baseRel base off6))

/-- LEA: no memory is read (43_load.md R189). -/
def execLea (dr : RegIdx) (off9 : BitVec 9) (s : State) : Host.Outcome State Fault Refusal :=
  .next (s.setResult dr (s.pcRel off9))

end Sys2Proof.Machine
end

