-- ==== Sys2Proof/Machine/Operate.lean ====
section
/-! DEFINITION. ADD, AND and NOT (41_operate.md). -/

namespace Sys2Proof.Machine

/-- ADD, register mode (41_operate.md R140); the ignored bits are not read (R141). -/
def execAddReg (dr sr1 sr2 : RegIdx) (s : State) : Host.Outcome State Fault Refusal :=
  .next (s.setResult dr (s.reg sr1 + s.reg sr2))

/-- ADD, immediate mode (41_operate.md R140). -/
def execAddImm (dr sr1 : RegIdx) (imm5 : BitVec 5) (s : State) : Host.Outcome State Fault Refusal :=
  .next (s.setResult dr (s.reg sr1 + sext imm5))

/-- AND, register mode (41_operate.md R143). -/
def execAndReg (dr sr1 sr2 : RegIdx) (s : State) : Host.Outcome State Fault Refusal :=
  .next (s.setResult dr (s.reg sr1 &&& s.reg sr2))

/-- AND, immediate mode; imm5 is sign-extended (41_operate.md R143, 90_conflicts.md C10). -/
def execAndImm (dr sr1 : RegIdx) (imm5 : BitVec 5) (s : State) : Host.Outcome State Fault Refusal :=
  .next (s.setResult dr (s.reg sr1 &&& sext imm5))

/-- NOT (41_operate.md R146). -/
def execNot (dr sr : RegIdx) (s : State) : Host.Outcome State Fault Refusal :=
  .next (s.setResult dr (~~~ s.reg sr))

end Sys2Proof.Machine
end

