-- ==== Sys2Proof/Machine/Store.lean ====
section
/-! DEFINITION. ST, STI and STR (44_store.md). A store is a plain write at every address and writes no flag. -/

namespace Sys2Proof.Machine

/-- ST (44_store.md R200). -/
def execSt (sr : RegIdx) (off9 : BitVec 9) (s : State) : Host.Outcome State Fault Refusal :=
  .next (s.memWrite (s.pcRel off9) (s.reg sr))

/-- STI: the pointer is read through the bridge, the store is plain (44_store.md R203). -/
def execSti (sr : RegIdx) (off9 : BitVec 9) (s : State) : Host.Outcome State Fault Refusal :=
  .next ((s.afterRead (s.pcRel off9)).memWrite (s.indirect off9) (s.reg sr))

/-- STR (44_store.md R206). -/
def execStr (sr base : RegIdx) (off6 : BitVec 6) (s : State) : Host.Outcome State Fault Refusal :=
  .next (s.memWrite (s.baseRel base off6) (s.reg sr))

end Sys2Proof.Machine
end

