-- ==== Sys2Proof/Machine/Trap.lean ====
section
/-! DEFINITION. TRAP, the trap dispatcher and its six routines (45_trap.md). `ir` is the instruction word, which a
string-scan overrun records. No routine writes COND. -/

namespace Sys2Proof.Machine

/-- The only register a trap saves: R7, and only when TRAP_LINKS_R7 is true (45_trap.md R221, 60_exceptions.md
R277). -/
def State.trapLink (s : State) : State := if s.params.trapLinksR7 then s.setReg 7 s.pc else s

/-- GETC: the wait begins; `completeInputWait` ends it (45_trap.md R222). -/
def trapGetc (s : State) : State := { s with wait := .getcWait }

/-- OUT (45_trap.md R224). -/
def trapOut (s : State) : State := s.hostWrite [lowByte (s.reg 0)]

/-- The string scan of PUTS and PUTSP over the `left` words up to the top of memory, the next one at `65536 - left`:
the characters written, and whether the scan passed 0xFFFF without a zero word (45_trap.md R226, R232, R234). Reads
are plain (20_memory.md R68). -/
def scanString (chars : Word → List Byte) (m : Memory) : Nat → List Byte × Bool
  | 0 => ([], true)
  | left + 1 =>
    let w := m.read (memWords - (left + 1))
    if w = 0x0000#16 then ([], false)
    else
      let r := scanString chars m left
      (chars w ++ r.1, r.2)

/-- A PUTS word's one character, its low byte (45_trap.md R226). -/
def putsChars (w : Word) : List Byte := [lowByte w]

/-- A PUTSP word's characters, the low byte and then the high byte if it is not zero (45_trap.md R232). -/
def putspChars (w : Word) : List Byte :=
  lowByte w :: if highByte w = 0x00#8 then [] else [highByte w]

/-- The scan from the address in R0: its characters are written, and an overrun is a fault after them (45_trap.md
R226, R232, R234). -/
def trapScan (chars : Word → List Byte) (ir : Word) (s : State) : State :=
  let r := scanString chars s.mem (memWords - (s.reg 0).toNat)
  if r.2 then (s.hostWrite r.1).raiseFault .trapScanOverrun ir else s.hostWrite r.1

/-- PUTS (45_trap.md R226). -/
def trapPuts (ir : Word) (s : State) : State := trapScan putsChars ir s

/-- IN: the prompt, then the wait (45_trap.md R229). -/
def trapIn (s : State) : State := { s.hostWrite s.params.inPrompt with wait := .inWait }

/-- PUTSP (45_trap.md R232). -/
def trapPutsp (ir : Word) (s : State) : State := trapScan putspChars ir s

/-- HALT: the notice, then the end of the run (45_trap.md R236). -/
def trapHalt (s : State) : State := { s.hostWrite s.params.haltNotice with status := .halted }

/-- The trap dispatcher: R7 if it is linked, then the routine of the vector, or nothing (45_trap.md R220, R238). -/
def trapDispatch (ir : Word) (vect : BitVec 8) (s : State) : State :=
  if vect = vecGETC then trapGetc s.trapLink
  else if vect = vecOUT then trapOut s.trapLink
  else if vect = vecPUTS then trapPuts ir s.trapLink
  else if vect = vecIN then trapIn s.trapLink
  else if vect = vecPUTSP then trapPutsp ir s.trapLink
  else if vect = vecHALT then trapHalt s.trapLink
  else s.trapLink

/-- TRAP (45_trap.md R220). -/
def execTrap (ign : BitVec 4) (vect : BitVec 8) (s : State) : Host.Outcome State Fault Refusal :=
  .next (trapDispatch (encode (.trap ign vect)) vect s)

/-- The word 0xF020 (45_trap.md R222). -/
def execGetc (s : State) : Host.Outcome State Fault Refusal := .next (trapGetc s.trapLink)

/-- The word 0xF021 (45_trap.md R224). -/
def execOut (s : State) : Host.Outcome State Fault Refusal := .next (trapOut s.trapLink)

/-- The word 0xF022 (45_trap.md R226). -/
def execPuts (s : State) : Host.Outcome State Fault Refusal := .next (trapPuts (encode .puts) s.trapLink)

/-- The word 0xF023 (45_trap.md R229). -/
def execIn (s : State) : Host.Outcome State Fault Refusal := .next (trapIn s.trapLink)

/-- The word 0xF024 (45_trap.md R232). -/
def execPutsp (s : State) : Host.Outcome State Fault Refusal := .next (trapPutsp (encode .putsp) s.trapLink)

/-- The word 0xF025 (45_trap.md R236). -/
def execHalt (s : State) : Host.Outcome State Fault Refusal := .next (trapHalt s.trapLink)

end Sys2Proof.Machine
end

