-- ==== Sys2Proof/Machine/Dispatch.lean ====
section
/-! DEFINITION. One arm per constructor of Instr: the dispatch of 40_cycle.md R124. -/

namespace Sys2Proof.Machine

/-- The effect of an instruction on the state its fetch left: PC is already the fetch address plus one
(40_cycle.md R122, R124). -/
def exec (i : Instr) (s : State) : Host.Outcome State Fault Refusal :=
  match i with
  -- 41_operate.md
  | .addReg dr sr1 _ sr2 => Sys2Proof.Machine.execAddReg dr sr1 sr2 s
  | .addImm dr sr1 imm5 => Sys2Proof.Machine.execAddImm dr sr1 imm5 s
  | .andReg dr sr1 _ sr2 => Sys2Proof.Machine.execAndReg dr sr1 sr2 s
  | .andImm dr sr1 imm5 => Sys2Proof.Machine.execAndImm dr sr1 imm5 s
  | .not dr sr _ => Sys2Proof.Machine.execNot dr sr s
  -- 42_control.md
  | .br nzp off9 => Sys2Proof.Machine.execBr nzp off9 s
  | .jmp _ base _ => Sys2Proof.Machine.execJmp base s
  | .ret _ _ => Sys2Proof.Machine.execRet s
  | .jsr off11 => Sys2Proof.Machine.execJsr off11 s
  | .jsrr _ base _ => Sys2Proof.Machine.execJsrr base s
  -- 43_load.md
  | .ld dr off9 => Sys2Proof.Machine.execLd dr off9 s
  | .ldi dr off9 => Sys2Proof.Machine.execLdi dr off9 s
  | .ldr dr base off6 => Sys2Proof.Machine.execLdr dr base off6 s
  | .lea dr off9 => Sys2Proof.Machine.execLea dr off9 s
  -- 44_store.md
  | .st sr off9 => Sys2Proof.Machine.execSt sr off9 s
  | .sti sr off9 => Sys2Proof.Machine.execSti sr off9 s
  | .str sr base off6 => Sys2Proof.Machine.execStr sr base off6 s
  -- 45_trap.md
  | .trap ign vect => Sys2Proof.Machine.execTrap ign vect s
  | .getc => Sys2Proof.Machine.execGetc s
  | .out => Sys2Proof.Machine.execOut s
  | .puts => Sys2Proof.Machine.execPuts s
  | .inp => Sys2Proof.Machine.execIn s
  | .putsp => Sys2Proof.Machine.execPutsp s
  | .halt => Sys2Proof.Machine.execHalt s
  -- 46_fatal.md
  | .res ign => Sys2Proof.Machine.execRes ign s
  | .rti ign => Sys2Proof.Machine.execRti ign s

end Sys2Proof.Machine
end

