-- ==== Sys2Proof/Machine/Step.lean ====
section
/-! DEFINITION. One step of the Run Loop (40_cycle.md R121), and a word placed where the next step fetches. -/

namespace Sys2Proof.Machine

/-- The step: an ended run has none; a pending stop request is taken before an input wait, and an input wait before a
fetch (40_cycle.md R121, 60_exceptions.md R276). -/
def step (s : State) : Host.Outcome State Fault Refusal :=
  match s.status with
  | .running =>
    if s.stopRequest then .next s.takeStop
    else
      match s.wait with
      | .none => exec (decode s.fetchWord) s.afterFetch
      | .getcWait => completeInputWait s
      | .inWait => completeInputWait s
  | .halted => .fault .runEnded
  | .faulted _ => .fault .runEnded
  | .interrupted => .fault .runEnded

/-- Where a placed word is fetched from: PC, or the next address when PC is KBSR_ADDR, whose fetch reads what the
poll wrote and not what was stored. -/
def State.placePc (s : State) : Word := if s.pc = s.params.kbsrAddr then s.pc + 1 else s.pc

/-- The state with the low `nbits` bits of `w` as the word that the very next step fetches: stored at PC, with the
run under way, no stop request and no input wait before the fetch (log entry 4). -/
def State.withFetchWord (s : State) (nbits w : Nat) : State :=
  { s.memWrite s.placePc (BitVec.ofNat 16 (w % 2 ^ nbits)) with
    pc := s.placePc
    status := .running
    stopRequest := false
    wait := .none }

end Sys2Proof.Machine
end

