-- ==== Sys2Proof/Machine/HostPort.lean ====
section
/-! DEFINITION. What the host may do to the core between two steps (40_cycle.md R120, 60_exceptions.md R275). -/

namespace Sys2Proof.Machine

/-- A host action between two steps. -/
inductive HostAction where
  /-- Append a character to the input queue; the host never removes one (40_cycle.md R120). -/
  | appendInput (c : Byte)
  /-- Raise a stop request (60_exceptions.md R275). -/
  | requestStop
  deriving DecidableEq, Repr

/-- The host's action on the state. "A request raised after the run has ended has no effect" (60_exceptions.md
R275). -/
def hostAct (a : HostAction) (s : State) : State :=
  match a with
  | .appendInput c => { s with input := s.input ++ [c] }
  | .requestStop => if s.status = .running then { s with stopRequest := true } else s

end Sys2Proof.Machine
end

