-- ==== Sys2Proof/Machine/Launch.lean ====
section
/-! DEFINITION. The launch, at the loader's boundary (70_reset_and_hazards.md R300 to R304): how a program comes to be
in memory before the first step. -/

namespace Sys2Proof.Machine

/-- A program image: an origin word, and the words loaded from it up (70_reset_and_hazards.md R302). -/
structure Image where
  origin : Word
  words : List Word
  deriving DecidableEq, Repr

/-- Two image bytes as a word, the first in bits 15..8 (70_reset_and_hazards.md R302). -/
def bigEndianWord (hi lo : Byte) : Word := hi ++ lo

/-- The big-endian words of a byte sequence; none when it ends in half a word (log entry 8). -/
def bigEndianWords : List Byte → Option (List Word)
  | [] => some []
  | [_] => none
  | hi :: lo :: rest => (bigEndianWords rest).map (bigEndianWord hi lo :: ·)

/-- An image file: "a big-endian 16-bit origin word, followed by big-endian 16-bit words"
(70_reset_and_hazards.md R302). -/
def Image.ofBytes (bs : List Byte) : Option Image :=
  match bigEndianWords bs with
  | some (origin :: words) => some { origin := origin, words := words }
  | _ => none

/-- An image loaded into memory, plainly and without polling (70_reset_and_hazards.md R302). -/
def Memory.loadImage (m : Memory) (img : Image) : Memory := m.load img.origin.toNat img.words

/-- The launch from at least one image (R301): the images loaded in order over zero-filled memory, a later one
overwriting an earlier one, and PC at the origin of the first (70_reset_and_hazards.md R302, R303). -/
def State.launch (p : Params) (gpr : Vector Word 8) (cond : BitVec 3) (first : Image) (more : List Image) : State :=
  State.initial p gpr cond first.origin ((first :: more).foldl Memory.loadImage [])

/-- The launch from image files: there is no run of the core when no image is given or one does not load
(70_reset_and_hazards.md R301, 60_exceptions.md R273). -/
def State.launchFiles (p : Params) (gpr : Vector Word 8) (cond : BitVec 3) (files : List (List Byte)) : Option State :=
  match files.mapM Image.ofBytes with
  | some (first :: more) => some (State.launch p gpr cond first more)
  | _ => none

end Sys2Proof.Machine
end

