-- ==== Sys2Proof/Safety.lean ====
section
/-! DEFINITION. What claims are stated in: the invariant of the core, the runs of the core and its host, and, for each
instruction, the registers, flags and addresses the spec lets it touch. -/

namespace Sys2Proof

namespace Machine

/-! ## The invariant -/

/-- The values COND may hold: none of the flags, which only a launch leaves, or exactly one (10_state.md R43). -/
abbrev condLegal (c : BitVec 3) : Prop := c = 0b000#3 ∨ c = condN ∨ c = condZ ∨ c = condP

/-- Exactly one of the three flags is set (10_state.md R35). -/
abbrev condOne (c : BitVec 3) : Prop := c = condN ∨ c = condZ ∨ c = condP

/-- The recorded word is one of the instruction that raises the recorded kind (60_exceptions.md R271). -/
abbrev FaultRecord.sound (f : FaultRecord) : Prop :=
  match f.kind with
  | .reservedOpcode => opcode f.word = opRES
  | .unimplementedRTI => opcode f.word = opRTI
  | .trapScanOverrun => opcode f.word = opTRAP ∧ (fieldVect f.word = vecPUTS ∨ fieldVect f.word = vecPUTSP)

/-- The invariant of the core. -/
structure State.Inv (s : State) : Prop where
  /-- Memory is in its canonical form. -/
  mem_wf : s.mem.wf
  /-- COND holds at most one flag (10_state.md R43). -/
  cond_legal : condLegal s.cond
  /-- The parameters meet their constraints (00_scope.md R10). -/
  params_wf : s.params.wf
  /-- An input wait is under way only in a run that goes on, or that a stop request ended (40_cycle.md R125). -/
  wait_live : s.wait ≠ .none → s.status = .running ∨ s.status = .interrupted
  /-- FAULT records an instruction that raises its kind, and PC is that instruction's address plus one
  (10_state.md R39, 40_cycle.md R127). -/
  fault_sound : ∀ f, s.status = .faulted f → f.sound ∧ s.pc = f.address + 1

/-- The next step of `s` is a fetch (40_cycle.md R121). -/
abbrev State.Fetches (s : State) : Prop := s.status = .running ∧ s.stopRequest = false ∧ s.wait = .none

/-! ## Runs -/

/-- The states that steps of the core and host actions between them lead to (40_cycle.md R120, R121). -/
inductive Reaches (s : State) : State → Prop where
  | start : Reaches s s
  | core {t u : State} : Reaches s t → step t = .next u → Reaches s u
  | host {t : State} (a : HostAction) : Reaches s t → Reaches s (hostAct a t)

end Machine

open Machine

/-! ## What each instruction may touch -/

/-- The destination whose value sets COND; none for an instruction that does not write COND (10_state.md R37). -/
def Instr.flagDest : Instr → Option RegIdx
  | .addReg dr .. | .addImm dr .. | .andReg dr .. | .andImm dr .. | .not dr .. => some dr
  | .ld dr _ | .ldi dr _ | .ldr dr .. | .lea dr _ => some dr
  | .br .. | .jmp .. | .jsr .. | .jsrr .. | .st .. | .sti .. | .str .. | .trap .. | .rti .. | .res .. | .ret ..
  | .getc | .out | .puts | .inp | .putsp | .halt => none

/-- An opcode-0xF instruction (45_trap.md R220). -/
def Instr.isTrap : Instr → Bool
  | .trap .. | .getc | .out | .puts | .inp | .putsp | .halt => true
  | .addReg .. | .addImm .. | .andReg .. | .andImm .. | .not .. | .br .. | .jmp .. | .jsr .. | .jsrr ..
  | .ld .. | .ldi .. | .ldr .. | .lea .. | .st .. | .sti .. | .str .. | .rti .. | .res .. | .ret .. => false

/-- An opcode-0xF instruction with the given vector: TRAP at that vector, or the row of that vector's word. -/
def Instr.isTrapAt (i : Instr) (v : BitVec 8) : Prop :=
  (∃ ign, i = .trap ign v) ∨ (i = .getc ∧ v = 0x20#8) ∨ (i = .out ∧ v = 0x21#8) ∨ (i = .puts ∧ v = 0x22#8) ∨
    (i = .inp ∧ v = 0x23#8) ∨ (i = .putsp ∧ v = 0x24#8) ∨ (i = .halt ∧ v = 0x25#8)

/-- The general registers an instruction may write in its own step (10_state.md R32). -/
def Instr.gprWrites (p : Params) : Instr → List RegIdx
  | .addReg dr .. | .addImm dr .. | .andReg dr .. | .andImm dr .. | .not dr .. => [dr]
  | .ld dr _ | .ldi dr _ | .ldr dr .. | .lea dr _ => [dr]
  | .jsr _ | .jsrr .. => [7]
  | .trap .. | .getc | .out | .puts | .inp | .putsp | .halt => if p.trapLinksR7 then [7] else []
  | .br .. | .jmp .. | .ret .. | .st .. | .sti .. | .str .. | .rti .. | .res .. => []

/-- The general registers an instruction reads (10_state.md R33). -/
def Instr.gprReads : Instr → List RegIdx
  | .addReg _ sr1 _ sr2 | .andReg _ sr1 _ sr2 => [sr1, sr2]
  | .addImm _ sr1 _ | .andImm _ sr1 _ => [sr1]
  | .not _ sr _ => [sr]
  | .jmp _ base _ | .jsrr _ base _ => [base]
  | .ret .. => [7]
  | .ldr _ base _ => [base]
  | .st sr _ | .sti sr _ => [sr]
  | .str sr base _ => [sr, base]
  | .out | .puts | .putsp => [0]
  | .trap _ v => if v = 0x21#8 ∨ v = 0x22#8 ∨ v = 0x24#8 then [0] else []
  | .br .. | .jsr .. | .ld .. | .ldi .. | .lea .. | .rti .. | .res .. | .getc | .inp | .halt => []

/-- The instructions that may replace PC (10_state.md R34). -/
def Instr.writesPc : Instr → Bool
  | .br .. | .jmp .. | .ret .. | .jsr .. | .jsrr .. => true
  | .addReg .. | .addImm .. | .andReg .. | .andImm .. | .not .. | .ld .. | .ldi .. | .ldr .. | .lea .. | .st .. | .sti ..
  | .str .. | .trap .. | .rti .. | .res .. | .getc | .out | .puts | .inp | .putsp | .halt => false

/-- The address an instruction stores to, by the expression its meaning uses: none for one that stores nothing
(44_store.md R200, R203, R206). -/
def Instr.storeAddr (i : Instr) (s : State) : Option Word :=
  match i with
  | .st _ off9 => some (s.pcRel off9)
  | .sti _ off9 => some (s.indirect off9)
  | .str _ base off6 => some (s.baseRel base off6)
  | .addReg .. | .addImm .. | .andReg .. | .andImm .. | .not .. | .br .. | .jmp .. | .jsr .. | .jsrr .. | .ld .. | .ldi ..
  | .ldr .. | .lea .. | .trap .. | .rti .. | .res .. | .ret .. | .getc | .out | .puts | .inp | .putsp | .halt => none

/-- The addresses an instruction reads through the bridge, its own fetch apart (20_memory.md R68). -/
def Instr.bridgedReads (i : Instr) (s : State) : List Word :=
  match i with
  | .ld _ off9 | .sti _ off9 => [s.pcRel off9]
  | .ldi _ off9 => [s.pcRel off9, s.indirect off9]
  | .ldr _ base off6 => [s.baseRel base off6]
  | .addReg .. | .addImm .. | .andReg .. | .andImm .. | .not .. | .br .. | .jmp .. | .jsr .. | .jsrr .. | .lea .. | .st ..
  | .str .. | .trap .. | .rti .. | .res .. | .ret .. | .getc | .out | .puts | .inp | .putsp | .halt => []

/-- The instruction polls the keyboard: one of its bridged reads is of KBSR_ADDR (20_memory.md R71). -/
def Instr.polls (i : Instr) (s : State) : Prop := s.params.kbsrAddr ∈ i.bridgedReads s

end Sys2Proof
end

