-- ==== Sys2Proof/Certificates/Slice0/Obligations.lean ====
section
/-! DEFINITION. The statements for the provers. Each names the rule of spec/ it formalises, or the sections it rests
on. A next state is written as a record update, so it says what is unchanged as well: every field it does not name. -/

open Sys2Proof Sys2Proof.Machine

/-! ## Encoding -/

/-- The decoder reads the opcode table: 30_encoding.md R91, R92, R99, and R101 for the words with a row of their own.
The opcode numbers, most field positions and the trap vectors are general knowledge (92 D2, D4; log entry 7). -/
def Obligations.DecodeReadsOpcodeTable : Prop :=
  ∀ w : Word,
    (field w 12 4 = 0x1#4 → field w 5 1 = 0#1 → decode w = .addReg (regField w 9) (regField w 6) (field w 3 2) (regField w 0)) ∧
    (field w 12 4 = 0x1#4 → field w 5 1 = 1#1 → decode w = .addImm (regField w 9) (regField w 6) (field w 0 5)) ∧
    (field w 12 4 = 0x5#4 → field w 5 1 = 0#1 → decode w = .andReg (regField w 9) (regField w 6) (field w 3 2) (regField w 0)) ∧
    (field w 12 4 = 0x5#4 → field w 5 1 = 1#1 → decode w = .andImm (regField w 9) (regField w 6) (field w 0 5)) ∧
    (field w 12 4 = 0x9#4 → decode w = .not (regField w 9) (regField w 6) (field w 0 6)) ∧
    (field w 12 4 = 0x0#4 → decode w = .br (field w 9 3) (field w 0 9)) ∧
    (field w 12 4 = 0xC#4 → regField w 6 ≠ 7 → decode w = .jmp (field w 9 3) (regField w 6) (field w 0 6)) ∧
    (field w 12 4 = 0xC#4 → regField w 6 = 7 → decode w = .ret (field w 9 3) (field w 0 6)) ∧
    (field w 12 4 = 0x4#4 → field w 11 1 = 1#1 → decode w = .jsr (field w 0 11)) ∧
    (field w 12 4 = 0x4#4 → field w 11 1 = 0#1 → decode w = .jsrr (field w 9 2) (regField w 6) (field w 0 6)) ∧
    (field w 12 4 = 0x2#4 → decode w = .ld (regField w 9) (field w 0 9)) ∧
    (field w 12 4 = 0xA#4 → decode w = .ldi (regField w 9) (field w 0 9)) ∧
    (field w 12 4 = 0x6#4 → decode w = .ldr (regField w 9) (regField w 6) (field w 0 6)) ∧
    (field w 12 4 = 0xE#4 → decode w = .lea (regField w 9) (field w 0 9)) ∧
    (field w 12 4 = 0x3#4 → decode w = .st (regField w 9) (field w 0 9)) ∧
    (field w 12 4 = 0xB#4 → decode w = .sti (regField w 9) (field w 0 9)) ∧
    (field w 12 4 = 0x7#4 → decode w = .str (regField w 9) (regField w 6) (field w 0 6)) ∧
    (field w 12 4 = 0xF#4 → decode w =
      if w = 0xF020#16 then .getc else if w = 0xF021#16 then .out else if w = 0xF022#16 then .puts
      else if w = 0xF023#16 then .inp else if w = 0xF024#16 then .putsp else if w = 0xF025#16 then .halt
      else .trap (field w 8 4) (field w 0 8)) ∧
    (field w 12 4 = 0xD#4 → decode w = .res (field w 0 12)) ∧
    (field w 12 4 = 0x8#4 → decode w = .rti (field w 0 12))

/-- Decoding the word of a well-formed instruction gives the instruction back, whatever its operands. -/
def Obligations.DecodeOfEncode : Prop := ∀ i : Instr, i.wf = true → decode (encode i) = i

/-- Every word is the word of exactly the one well-formed instruction it decodes to, so decoding loses no bit. -/
def Obligations.EncodeOfDecode : Prop := ∀ w : Word, encode (decode w) = w ∧ (decode w).wf = true

/-- 30_encoding.md R96: a bit marked x changes nothing an instruction does, and no value of it faults. For TRAP, RES
and RTI the instruction word that a fault records is the one thing that holds it, so outcomes agree up to that word.
That the bits are not checked is the spec's own decision (92 D11). -/
def Obligations.IgnoredBitsChangeNothing : Prop :=
  (∀ dr sr1 sr2 x y s, exec (.addReg dr sr1 x sr2) s = exec (.addReg dr sr1 y sr2) s) ∧
  (∀ dr sr1 sr2 x y s, exec (.andReg dr sr1 x sr2) s = exec (.andReg dr sr1 y sr2) s) ∧
  (∀ dr sr x y s, exec (.not dr sr x) s = exec (.not dr sr y) s) ∧
  (∀ b x x' y y' s, exec (.jmp x b x') s = exec (.jmp y b y') s) ∧
  (∀ x x' y y' s, exec (.ret x x') s = exec (.ret y y') s) ∧
  (∀ b x x' y y' s, exec (.jsrr x b x') s = exec (.jsrr y b y') s) ∧
  (∀ i j v s, i.isTrapAt v → j.isTrapAt v → ∃ t, exec i s = .next t ∧
    (exec j s = .next t ∨ ∃ f, t.status = .faulted f ∧
      exec j s = .next { t with status := .faulted { f with word := encode j } })) ∧
  (∀ x y s, ∃ t f, t.status = .faulted f ∧ exec (.res x) s = .next t ∧
    exec (.res y) s = .next { t with status := .faulted { f with word := encode (.res y) } }) ∧
  (∀ x y s, ∃ t f, t.status = .faulted f ∧ exec (.rti x) s = .next t ∧
    exec (.rti y) s = .next { t with status := .faulted { f with word := encode (.rti y) } })

/-- Words written out bit by bit from the formats of 30_encoding.md R94, one of each family. -/
def Obligations.DecodeSampleWords : Prop :=
  decode 0b0001_001_010_0_00_011#16 = .addReg 1 2 0b00#2 3 ∧
  decode 0b0101_101_101_1_11111#16 = .andImm 5 5 0b11111#5 ∧
  decode 0b1001_000_001_111111#16 = .not 0 1 0b111111#6 ∧
  decode 0b0000_010_000000101#16 = .br 0b010#3 0b000000101#9 ∧
  decode 0b1100_000_111_000000#16 = .ret 0b000#3 0b000000#6 ∧
  decode 0b0100_1_00000000100#16 = .jsr 0b00000000100#11 ∧
  decode 0b0110_011_100_100000#16 = .ldr 3 4 0b100000#6 ∧
  decode 0b1011_010_000000000#16 = .sti 2 0b000000000#9 ∧
  decode 0b1111_0000_00100110#16 = .trap 0b0000#4 0x26#8 ∧
  decode 0b1101_111111111111#16 = .res 0b111111111111#12

/-! ## Words and flags -/

/-- 00_scope.md R13: sign extension replicates bit N-1 into bits 15..N, and an 8-bit value widens with zeros. -/
def Obligations.SignAndZeroExtension : Prop :=
  (∀ n, 1 ≤ n → n ≤ 16 → ∀ v : BitVec n,
    sext v = if v.getLsbD (n - 1) then (0xFFFF#16 <<< n) ||| v.setWidth 16 else v.setWidth 16) ∧
  (∀ v : BitVec 16, sext v = v) ∧
  (∀ c : Byte, highByte (c.setWidth 16) = 0x00#8 ∧ lowByte (c.setWidth 16) = c) ∧
  sext (0x1F#5) = 0xFFFF#16 ∧ sext (0x0F#5) = 0x000F#16

/-- 10_state.md R35: the value setcc gives COND, and that exactly one flag is then set. The bit of each flag is R36's
(log entry 7). -/
def Obligations.SetccRule : Prop :=
  ∀ v : Word, condOf v = (if v = 0x0000#16 then 0b010#3 else if v.getLsbD 15 then 0b100#3 else 0b001#3) ∧
    (condOf v = 0b100#3 ∨ condOf v = 0b010#3 ∨ condOf v = 0b001#3)

/-- 10_state.md R31: a register reads what was written to it last, and no write reaches another register or anything
else; none is hard-wired. -/
def Obligations.RegisterFileReadAfterWrite : Prop :=
  ∀ (s : State) (r r' : RegIdx) (v : Word),
    (s.setReg r v).reg r' = (if r' = r then v else s.reg r') ∧ s.setReg r v = { s with regs := s.regs.set r v }

/-! ## Memory and the keyboard bridge -/

/-- 20_memory.md R66: a read through the bridge. At any address but KBSR_ADDR it is a plain read. At KBSR_ADDR it sets
KBSR to the ready value and moves the oldest character, which is then consumed, into KBDR, or clears KBSR when no
character is available, and
then returns KBSR. That the poll consumes the character, and its width, are the spec's own decisions (92 D24, D18). -/
def Obligations.BridgedRead : Prop :=
  ∀ s : State, s.mem.wf → s.params.wf →
    (∀ a, a ≠ s.params.kbsrAddr → s.memRead a = s.plainRead a ∧ s.afterRead a = s) ∧
    (∀ a, a = s.params.kbsrAddr → s.input = [] →
      s.memRead a = 0x0000#16 ∧
      (∀ b, (s.afterRead a).plainRead b = if b = a then 0x0000#16 else s.plainRead b) ∧
      s.afterRead a = { s with mem := (s.afterRead a).mem }) ∧
    (∀ a c rest, a = s.params.kbsrAddr → s.input = c :: rest →
      s.memRead a = s.params.kbsrReady ∧
      (∀ b, (s.afterRead a).plainRead b =
        if b = s.params.kbdrAddr then c.setWidth 16 else if b = a then s.params.kbsrReady else s.plainRead b) ∧
      s.afterRead a = { s with mem := (s.afterRead a).mem, input := rest, consumed := s.consumed ++ [c] })

/-- 20_memory.md R67: a write sets the word at its address, for every address, and has no side effect: at the two
keyboard addresses by the spec's own decision (92 D25). -/
def Obligations.PlainWrite : Prop :=
  ∀ (s : State) (a v : Word), s.mem.wf →
    (∀ b, (s.memWrite a v).plainRead b = if b = a then v else s.plainRead b) ∧
    s.memWrite a v = { s with mem := (s.memWrite a v).mem }

/-- Memories in canonical form that read alike at all 65536 addresses are the same data. -/
def Obligations.CanonicalMemoryIsExtensional : Prop :=
  ∀ m m' : Memory, m.wf → m'.wf → (∀ a, a < 65536 → m.read a = m'.read a) → m = m'

/-! ## The cycle -/

/-- 40_cycle.md R122: a step that fetches runs the instruction the word at PC decodes to, on the state in which PC is
one further; a fetch from KBSR_ADDR first polls the keyboard and reads what the poll wrote. That PC wraps is the spec's
own decision (92 D10; log entry 14). -/
def Obligations.StepRunsDecodedInstruction : Prop :=
  ∀ s : State, s.Fetches →
    (s.pc ≠ s.params.kbsrAddr → step s = exec (decode (s.plainRead s.pc)) { s with pc := s.pc + 1 }) ∧
    (s.pc = s.params.kbsrAddr → step s = exec (decode (s.poll.plainRead s.pc)) { s.poll with pc := s.pc + 1 })

/-- 40_cycle.md R121: the four things a step can be, in their order. The order, the stop at a step boundary and the wait
are the spec's own decisions (92 D27, D26, D17; log entries 17 and 11), and that an ended run answers `runEnded` is the
model's (log entry 9). -/
def Obligations.StepOrder : Prop :=
  ∀ s : State,
    (s.status ≠ .running → step s = .fault .runEnded) ∧
    (s.status = .running → s.stopRequest = true → step s = .next { s with status := .interrupted }) ∧
    (s.status = .running → s.stopRequest = false → s.wait ≠ .none → step s = completeInputWait s) ∧
    (s.status = .running → s.stopRequest = false → s.wait = .none →
      step s = exec (decode (s.memRead s.pc)) { s.afterRead s.pc with pc := s.pc + 1 })

/-- 40_cycle.md R125: an input wait holds while the host has no character, and otherwise takes the oldest one, echoes
it for IN when IN_ECHO is true, puts it in R0 and ends; only GETC and IN set WAIT. The wait is the spec's own decision
(92 D17); that a hold is the outcome `inputHold` is the model's (log entry 9). -/
def Obligations.InputWait : Prop :=
  (∀ s : State, s.status = .running → s.stopRequest = false → s.wait ≠ .none → s.input = [] →
    step s = .fault .inputHold) ∧
  (∀ (s : State) (c : Byte) (rest : List Byte), s.status = .running → s.stopRequest = false → s.wait ≠ .none →
    s.input = c :: rest →
    step s = .next { s with
      input := rest
      consumed := s.consumed ++ [c]
      output := s.output ++ (if s.wait = .inWait ∧ s.params.inEcho = true then [c] else [])
      regs := s.regs.set 0 (c.setWidth 16)
      wait := .none }) ∧
  (∀ i s t, exec i s = .next t → ¬ i.isTrapAt 0x20#8 → ¬ i.isTrapAt 0x23#8 → t.wait = s.wait) ∧
  (∀ i s t, exec i s = .next t → i.isTrapAt 0x20#8 → t.wait = .getcWait) ∧
  (∀ i s t, exec i s = .next t → i.isTrapAt 0x23#8 → t.wait = .inWait)

/-- A word placed by `withFetchWord` is what the very next step runs. -/
def Obligations.PlacedWordRuns : Prop :=
  ∀ (s : State) (nbits w : Nat), s.mem.wf → nbits ≤ 16 → w < 2 ^ nbits →
    ∃ i, decodeTableWord nbits w = some i ∧
      step (s.withFetchWord nbits w) =
        exec i { s.withFetchWord nbits w with pc := (s.withFetchWord nbits w).pc + 1 }

/-- 20_memory.md R78: a word stored at an address is what the next fetch from that address runs, with no other
action: for every store, whenever the next fetch is from the address stored to (the spec marks R78 as derived). -/
def Obligations.StoreSeenByNextFetch : Prop :=
  ∀ (i : Instr) (sr : RegIdx) (s t : State),
    ((∃ off9, i = .st sr off9) ∨ (∃ off9, i = .sti sr off9) ∨ ∃ base off6, i = .str sr base off6) →
    s.mem.wf → s.Fetches → exec i s = .next t → i.storeAddr s = some t.pc → t.pc ≠ t.params.kbsrAddr →
    step t = exec (decode (s.reg sr)) { t with pc := t.pc + 1 }

/-! ## Operate instructions -/

/-- 41_operate.md R140: ADD, from its word and for both of its forms. -/
def Obligations.AddResult : Prop :=
  (∀ (ir : Word) (s : State), field ir 12 4 = 0x1#4 → exec (decode ir) s = .next
    (let a := s.reg (regField ir 6)
     let b := if field ir 5 1 = 1#1 then sext (field ir 0 5) else s.reg (regField ir 0)
     { s with regs := s.regs.set (regField ir 9) (a + b), cond := condOf (a + b) })) ∧
  (∀ dr sr1 x sr2 s, exec (.addReg dr sr1 x sr2) s = .next
    { s with regs := s.regs.set dr (s.reg sr1 + s.reg sr2), cond := condOf (s.reg sr1 + s.reg sr2) }) ∧
  (∀ dr sr1 imm5 s, exec (.addImm dr sr1 imm5) s = .next
    { s with regs := s.regs.set dr (s.reg sr1 + sext imm5), cond := condOf (s.reg sr1 + sext imm5) })

/-- 41_operate.md R143: AND, from its word and for both of its forms; that imm5 is sign-extended is the spec's own
decision (92 D32). -/
def Obligations.AndResult : Prop :=
  (∀ (ir : Word) (s : State), field ir 12 4 = 0x5#4 → exec (decode ir) s = .next
    (let a := s.reg (regField ir 6)
     let b := if field ir 5 1 = 1#1 then sext (field ir 0 5) else s.reg (regField ir 0)
     { s with regs := s.regs.set (regField ir 9) (a &&& b), cond := condOf (a &&& b) })) ∧
  (∀ dr sr1 x sr2 s, exec (.andReg dr sr1 x sr2) s = .next
    { s with regs := s.regs.set dr (s.reg sr1 &&& s.reg sr2), cond := condOf (s.reg sr1 &&& s.reg sr2) }) ∧
  (∀ dr sr1 imm5 s, exec (.andImm dr sr1 imm5) s = .next
    { s with regs := s.regs.set dr (s.reg sr1 &&& sext imm5), cond := condOf (s.reg sr1 &&& sext imm5) })

/-- 41_operate.md R146: NOT, from its word and in its one form. -/
def Obligations.NotResult : Prop :=
  (∀ (ir : Word) (s : State), field ir 12 4 = 0x9#4 → exec (decode ir) s = .next
    { s with regs := s.regs.set (regField ir 9) (~~~ s.reg (regField ir 6)), cond := condOf (~~~ s.reg (regField ir 6)) }) ∧
  (∀ dr sr x s, exec (.not dr sr x) s = .next
    { s with regs := s.regs.set dr (~~~ s.reg sr), cond := condOf (~~~ s.reg sr) })

/-! ## Control transfer -/

/-- 42_control.md R160, R161: BR is taken iff its condition bits and COND share a set bit; its offset is relative to
the PC after the fetch. Nothing but PC changes. -/
def Obligations.BrResult : Prop :=
  (∀ (ir : Word) (s : State), field ir 12 4 = 0x0#4 → exec (decode ir) s = .next
    (if field ir 9 3 &&& s.cond ≠ 0b000#3 then { s with pc := s.pc + sext (field ir 0 9) } else s)) ∧
  (∀ nzp off9 s, exec (.br nzp off9) s = .next
    (if nzp &&& s.cond ≠ 0b000#3 then { s with pc := s.pc + sext off9 } else s)) ∧
  (∀ off9 s, exec (.br 0b000#3 off9) s = .next s) ∧
  (∀ nzp off9 s, s.cond = 0b000#3 → exec (.br nzp off9) s = .next s)

/-- 42_control.md R163, R164: JMP and its R7 form RET put the base register in PC and change nothing else. -/
def Obligations.JmpAndRetResult : Prop :=
  (∀ (ir : Word) (s : State), field ir 12 4 = 0xC#4 → exec (decode ir) s = .next { s with pc := s.reg (regField ir 6) }) ∧
  (∀ x base y s, exec (.jmp x base y) s = .next { s with pc := s.reg base }) ∧
  (∀ x y s, exec (.ret x y) s = .next { s with pc := s.reg 7 }) ∧
  decode 0xC1C0#16 = .ret 0b000#3 0b000000#6

/-- 42_control.md R166: JSR links the PC after the fetch in R7 and jumps relative to it. -/
def Obligations.JsrResult : Prop :=
  (∀ (ir : Word) (s : State), field ir 12 4 = 0x4#4 → field ir 11 1 = 1#1 → exec (decode ir) s = .next
    { s with regs := s.regs.set 7 s.pc, pc := s.pc + sext (field ir 0 11) }) ∧
  (∀ off11 s, exec (.jsr off11) s = .next { s with regs := s.regs.set 7 s.pc, pc := s.pc + sext off11 })

/-- 42_control.md R168, R169: JSRR links the PC after the fetch in R7 and jumps to the base register; with BaseR = 7
that is the new R7 when JSRR_LINK_FIRST is true and the old R7 when it is false (92 D12; log entry 1). -/
def Obligations.JsrrResult : Prop :=
  (∀ (ir : Word) (s : State), field ir 12 4 = 0x4#4 → field ir 11 1 = 0#1 → exec (decode ir) s = .next
    { s with
      regs := s.regs.set 7 s.pc
      pc := if s.params.jsrrLinkFirst = true ∧ regField ir 6 = 7 then s.pc else s.reg (regField ir 6) }) ∧
  (∀ x base y s, exec (.jsrr x base y) s = .next
    { s with
      regs := s.regs.set 7 s.pc
      pc := if s.params.jsrrLinkFirst = true ∧ base = 7 then s.pc else s.reg base })

/-! ## Loads -/

/-- 43_load.md R180: LD reads through the bridge at PC plus its offset and sets COND from the word. -/
def Obligations.LdResult : Prop :=
  (∀ (ir : Word) (s : State), field ir 12 4 = 0x2#4 → exec (decode ir) s = .next
    (let ea := s.pc + sext (field ir 0 9)
     { s.afterRead ea with regs := s.regs.set (regField ir 9) (s.memRead ea), cond := condOf (s.memRead ea) })) ∧
  (∀ dr off9 s, exec (.ld dr off9) s = .next
    { s.afterRead (s.pc + sext off9) with
      regs := s.regs.set dr (s.memRead (s.pc + sext off9)), cond := condOf (s.memRead (s.pc + sext off9)) })

/-- 43_load.md R183: LDI reads its pointer through the bridge, then the word it points to, through the bridge again
and after the first read's effect. -/
def Obligations.LdiResult : Prop :=
  (∀ (ir : Word) (s : State), field ir 12 4 = 0xA#4 → exec (decode ir) s = .next
    (let cell := s.pc + sext (field ir 0 9)
     let p := s.memRead cell
     let v := (s.afterRead cell).memRead p
     { (s.afterRead cell).afterRead p with regs := s.regs.set (regField ir 9) v, cond := condOf v })) ∧
  (∀ dr off9 s, exec (.ldi dr off9) s = .next
    (let cell := s.pc + sext off9
     let p := s.memRead cell
     let v := (s.afterRead cell).memRead p
     { (s.afterRead cell).afterRead p with regs := s.regs.set dr v, cond := condOf v }))

/-- 43_load.md R186: LDR reads through the bridge at the base register plus its offset. -/
def Obligations.LdrResult : Prop :=
  (∀ (ir : Word) (s : State), field ir 12 4 = 0x6#4 → exec (decode ir) s = .next
    (let ea := s.reg (regField ir 6) + sext (field ir 0 6)
     { s.afterRead ea with regs := s.regs.set (regField ir 9) (s.memRead ea), cond := condOf (s.memRead ea) })) ∧
  (∀ dr base off6 s, exec (.ldr dr base off6) s = .next
    { s.afterRead (s.reg base + sext off6) with
      regs := s.regs.set dr (s.memRead (s.reg base + sext off6)), cond := condOf (s.memRead (s.reg base + sext off6)) })

/-- 43_load.md R189: LEA writes the address itself and reads no memory, so it never polls. -/
def Obligations.LeaResult : Prop :=
  (∀ (ir : Word) (s : State), field ir 12 4 = 0xE#4 → exec (decode ir) s = .next
    (let ea := s.pc + sext (field ir 0 9)
     { s with regs := s.regs.set (regField ir 9) ea, cond := condOf ea })) ∧
  (∀ dr off9 s, exec (.lea dr off9) s = .next
    { s with regs := s.regs.set dr (s.pc + sext off9), cond := condOf (s.pc + sext off9) })

/-! ## Stores -/

/-- 44_store.md R200: ST stores its register at PC plus its offset; every other word and everything else is
unchanged. -/
def Obligations.StResult : Prop :=
  (∀ ir : Word, field ir 12 4 = 0x3#4 →
    decode ir = .st (regField ir 9) (field ir 0 9)) ∧
  (∀ (sr : RegIdx) (off9 : BitVec 9) (s : State), s.mem.wf →
    ∃ t, exec (.st sr off9) s = .next t ∧ t = { s with mem := t.mem } ∧
      ∀ b, t.plainRead b = if b = s.pc + sext off9 then s.reg sr else s.plainRead b)

/-- 44_store.md R203: STI reads its pointer through the bridge and stores its register plainly at the word read;
every other word is as the pointer's read left it. -/
def Obligations.StiResult : Prop :=
  (∀ ir : Word, field ir 12 4 = 0xB#4 →
    decode ir = .sti (regField ir 9) (field ir 0 9)) ∧
  (∀ (sr : RegIdx) (off9 : BitVec 9) (s : State), s.mem.wf →
    let cell := s.pc + sext off9
    ∃ t, exec (.sti sr off9) s = .next t ∧ t = { s.afterRead cell with mem := t.mem } ∧
      ∀ b, t.plainRead b = if b = s.memRead cell then s.reg sr else (s.afterRead cell).plainRead b)

/-- 44_store.md R206: STR stores its register at the base register plus its offset; every other word and everything
else is unchanged. -/
def Obligations.StrResult : Prop :=
  (∀ ir : Word, field ir 12 4 = 0x7#4 →
    decode ir = .str (regField ir 9) (regField ir 6) (field ir 0 6)) ∧
  (∀ (sr base : RegIdx) (off6 : BitVec 6) (s : State), s.mem.wf →
    ∃ t, exec (.str sr base off6) s = .next t ∧ t = { s with mem := t.mem } ∧
      ∀ b, t.plainRead b = if b = s.reg base + sext off6 then s.reg sr else s.plainRead b)

/-! ## TRAP -/

/-- 45_trap.md R220, R221: an opcode-0xF word runs the routine of its low 8 bits, whatever IR[11:8] holds, on the state
in which R7 is the PC after the fetch if TRAP_LINKS_R7 is true and unchanged if it is false (92 D13; log entry 1). COND
is unchanged. -/
def Obligations.TrapDispatch : Prop :=
  (∀ s : State, s.trapLink = if s.params.trapLinksR7 = true then { s with regs := s.regs.set 7 s.pc } else s) ∧
  (∀ (ir : Word) (s : State), field ir 12 4 = 0xF#4 → (decode ir).isTrapAt (field ir 0 8)) ∧
  (∀ (i : Instr) (v : BitVec 8) (s : State), i.isTrapAt v → exec i s = .next (
    if v = 0x20#8 then trapGetc s.trapLink
    else if v = 0x21#8 then trapOut s.trapLink
    else if v = 0x22#8 then trapPuts (encode i) s.trapLink
    else if v = 0x23#8 then trapIn s.trapLink
    else if v = 0x24#8 then trapPutsp (encode i) s.trapLink
    else if v = 0x25#8 then trapHalt s.trapLink
    else s.trapLink)) ∧
  (∀ (i : Instr) (v : BitVec 8) (s t : State), i.isTrapAt v → exec i s = .next t →
    t.cond = s.cond ∧ t.mem = s.mem ∧ t.pc = s.pc)

/-- 45_trap.md R222: GETC begins the wait; the completing step takes the oldest character without echo, and until the
host has one there is no step (the spec's own decision 92 D17; log entry 9). -/
def Obligations.GetcResult : Prop :=
  (∀ i s, i.isTrapAt 0x20#8 → exec i s = .next { s.trapLink with wait := .getcWait }) ∧
  (∀ (t : State) (c : Byte) (rest : List Byte), t.status = .running → t.stopRequest = false → t.wait = .getcWait →
    t.input = c :: rest →
    step t = .next { t with
      input := rest
      consumed := t.consumed ++ [c]
      regs := t.regs.set 0 (c.setWidth 16)
      wait := .none }) ∧
  (∀ t : State, t.status = .running → t.stopRequest = false → t.wait = .getcWait → t.input = [] →
    step t = .fault .inputHold)

/-- 45_trap.md R224: OUT writes the low byte of R0 and changes nothing else but R7, which is linked when TRAP_LINKS_R7 is
true (45_trap.md R221, 92 D13; log entry 1). -/
def Obligations.OutResult : Prop :=
  ∀ i s, i.isTrapAt 0x21#8 →
    exec i s = .next { s.trapLink with output := s.output ++ [(s.reg 0).extractLsb' 0 8] }

/-- 45_trap.md R226: PUTS writes the low byte of each word from the address in R0 up to the first zero word, and
nothing after it; a string with no zero word up to 0xFFFF is written whole and then faults. Its reads are plain. The
byte, the fault and the plain reads are the spec's own decisions (92 D16, D15, D14). -/
def Obligations.PutsResult : Prop :=
  ∀ i s, i.isTrapAt 0x22#8 →
    (∀ n, (s.reg 0).toNat + n < 65536 → (∀ k, k < n → s.mem.read ((s.reg 0).toNat + k) ≠ 0x0000#16) →
      s.mem.read ((s.reg 0).toNat + n) = 0x0000#16 →
      exec i s = .next { s.trapLink with
        output := s.output ++ (List.range n).map (fun k => (s.mem.read ((s.reg 0).toNat + k)).extractLsb' 0 8) }) ∧
    ((∀ b, (s.reg 0).toNat ≤ b → b < 65536 → s.mem.read b ≠ 0x0000#16) →
      exec i s = .next { s.trapLink with
        output := s.output ++ (List.range (65536 - (s.reg 0).toNat)).map
          (fun k => (s.mem.read ((s.reg 0).toNat + k)).extractLsb' 0 8)
        status := .faulted { kind := .trapScanOverrun, address := s.pc - 1, word := encode i } })

/-- 45_trap.md R229: IN writes the prompt and begins the wait; the completing step echoes the character iff IN_ECHO is
true and puts it in R0 (the spec's own decisions 92 D17, D19, D20). -/
def Obligations.InResult : Prop :=
  (∀ i s, i.isTrapAt 0x23#8 →
    exec i s = .next { s.trapLink with output := s.output ++ s.params.inPrompt, wait := .inWait }) ∧
  (∀ (t : State) (c : Byte) (rest : List Byte), t.status = .running → t.stopRequest = false → t.wait = .inWait →
    t.input = c :: rest →
    step t = .next { t with
      input := rest
      consumed := t.consumed ++ [c]
      output := t.output ++ (if t.params.inEcho = true then [c] else [])
      regs := t.regs.set 0 (c.setWidth 16)
      wait := .none })

/-- 45_trap.md R232: PUTSP writes each word's low byte, then its high byte if that is not zero, up to the first zero
word; a string with no zero word up to 0xFFFF is written whole and then faults (the spec's own decisions 92 D15 and,
for the plain reads, D14). -/
def Obligations.PutspResult : Prop :=
  let chars : Word → List Byte := fun w =>
    if w.extractLsb' 8 8 = 0x00#8 then [w.extractLsb' 0 8] else [w.extractLsb' 0 8, w.extractLsb' 8 8]
  ∀ i s, i.isTrapAt 0x24#8 →
    (∀ n, (s.reg 0).toNat + n < 65536 → (∀ k, k < n → s.mem.read ((s.reg 0).toNat + k) ≠ 0x0000#16) →
      s.mem.read ((s.reg 0).toNat + n) = 0x0000#16 →
      exec i s = .next { s.trapLink with
        output := s.output ++ (List.range n).flatMap (fun k => chars (s.mem.read ((s.reg 0).toNat + k))) }) ∧
    ((∀ b, (s.reg 0).toNat ≤ b → b < 65536 → s.mem.read b ≠ 0x0000#16) →
      exec i s = .next { s.trapLink with
        output := s.output ++ (List.range (65536 - (s.reg 0).toNat)).flatMap
          (fun k => chars (s.mem.read ((s.reg 0).toNat + k)))
        status := .faulted { kind := .trapScanOverrun, address := s.pc - 1, word := encode i } })

/-- 45_trap.md R234: a step that fetches PUTS or PUTSP and meets no zero word from R0 up to 0xFFFF ends the run with
the TRAP's own address and word in FAULT; the characters already written stay written (the spec's own decision 92
D15). -/
def Obligations.ScanOverrunFault : Prop :=
  ∀ s : State, s.Fetches → field s.fetchWord 12 4 = 0xF#4 →
    (field s.fetchWord 0 8 = 0x22#8 ∨ field s.fetchWord 0 8 = 0x24#8) →
    (∀ b, (s.reg 0).toNat ≤ b → b < 65536 → s.afterFetch.mem.read b ≠ 0x0000#16) →
    ∃ t cs, step s = .next t ∧
      t.status = .faulted { kind := .trapScanOverrun, address := s.pc, word := s.fetchWord } ∧
      t.output = s.output ++ cs ∧ 65536 - (s.reg 0).toNat ≤ cs.length ∧ t.pc = s.pc + 1

/-- 45_trap.md R236: HALT writes the notice and ends the run as Halted; PC stays at the HALT's address plus one, and no
later instruction is fetched. R7 is linked when TRAP_LINKS_R7 is true; the link and the status are the spec's own
decisions (92 D13, D31; log entries 1 and 19). -/
def Obligations.HaltResult : Prop :=
  (∀ i s, i.isTrapAt 0x25#8 →
    exec i s = .next { s.trapLink with output := s.output ++ s.params.haltNotice, status := .halted }) ∧
  (∀ (s t : State), s.Fetches → (decode s.fetchWord).isTrapAt 0x25#8 → step s = .next t →
    t.pc = s.pc + 1 ∧ step t = .fault .runEnded)

/-- 45_trap.md R238: a vector that is none of the six does nothing, R7 apart when TRAP_LINKS_R7 is true. That nothing is
written to the host, and the link, are the spec's own decisions (92 D22, D13; log entries 16 and 1). -/
def Obligations.UnrecognisedVector : Prop :=
  ∀ (ign : BitVec 4) (v : BitVec 8) (s : State),
    v ≠ 0x20#8 → v ≠ 0x21#8 → v ≠ 0x22#8 → v ≠ 0x23#8 → v ≠ 0x24#8 → v ≠ 0x25#8 →
    exec (.trap ign v) s = .next (if s.params.trapLinksR7 = true then { s with regs := s.regs.set 7 s.pc } else s)

/-! ## RES and RTI, and the end of a run -/

/-- 46_fatal.md R260: a RES word ends the run as Faulted with its own address and word, and changes nothing else but
the fetch's PC. The status, the record and the silent output are the spec's own decisions (92 D31, D28, D23; log entries
5, 16 and 19). -/
def Obligations.ResFault : Prop :=
  (∀ s : State, s.Fetches → field s.fetchWord 12 4 = 0xD#4 → step s = .next
    { s.afterRead s.pc with
      pc := s.pc + 1
      status := .faulted { kind := .reservedOpcode, address := s.pc, word := s.fetchWord } }) ∧
  (∀ ign s, exec (.res ign) s = .next
    { s with status := .faulted { kind := .reservedOpcode, address := s.pc - 1, word := encode (.res ign) } })

/-- 46_fatal.md R262: an RTI word ends the run as Faulted with its own address and word, and restores nothing. The
status, the record and the silent output are the spec's own decisions (92 D31, D28, D23; log entries 5, 16 and 19). -/
def Obligations.RtiFault : Prop :=
  (∀ s : State, s.Fetches → field s.fetchWord 12 4 = 0x8#4 → step s = .next
    { s.afterRead s.pc with
      pc := s.pc + 1
      status := .faulted { kind := .unimplementedRTI, address := s.pc, word := s.fetchWord } }) ∧
  (∀ ign s, exec (.rti ign) s = .next
    { s with status := .faulted { kind := .unimplementedRTI, address := s.pc - 1, word := encode (.rti ign) } })

/-- 46_fatal.md R263: RES or RTI faults in the step that fetched it, after the PC increment and with no other effect,
and no instruction after it executes, whatever the host does next. The status and the silent output are the spec's own
decisions (92 D31, D23; log entries 19 and 16), and the outcome `runEnded` is the model's (log entry 9). -/
def Obligations.FatalIsFinal : Prop :=
  ∀ (s t : State) (acts : List HostAction), s.Fetches → (field s.fetchWord 12 4 = 0xD#4 ∨ field s.fetchWord 12 4 = 0x8#4) →
    step s = .next t →
    (∃ f, t = { s.afterRead s.pc with pc := s.pc + 1, status := .faulted f }) ∧
    step (acts.foldl (fun u a => hostAct a u) t) = .fault .runEnded

/-- 60_exceptions.md R275: a stop request stays pending through host actions and instructions, is taken at the next
step boundary with STATUS the only change, and has no effect on an ended run. That it is taken between steps only, and
before an input wait, are the spec's own decisions (92 D26, D27). -/
def Obligations.StopRequest : Prop :=
  (∀ s : State, s.status = .running → hostAct .requestStop s = { s with stopRequest := true }) ∧
  (∀ s : State, s.status = .running → s.stopRequest = true → step s = .next { s with status := .interrupted }) ∧
  (∀ (s : State) (a : HostAction), s.stopRequest = true → (hostAct a s).stopRequest = true) ∧
  (∀ (i : Instr) (s t : State) (b : Bool), exec i s = .next t →
    exec i { s with stopRequest := b } = .next { t with stopRequest := b }) ∧
  (∀ s : State, s.status ≠ .running → hostAct .requestStop s = s)

/-- The ways a run ends: 40_cycle.md R126 and 10_state.md R38. A step that leaves Running took a stop request, or ran
a HALT, or ran RES, RTI or a scan that passed 0xFFFF; and an ended run has no step. The four-valued STATUS, the record
and the scan's fault are the spec's own decisions (92 D31, D28, D15). -/
def Obligations.RunEnds : Prop :=
  (∀ s t : State, step s = .next t → t.status ≠ .running →
    (t.status = .interrupted ∧ s.stopRequest = true) ∨
    (s.Fetches ∧ t.status = .halted ∧ (decode s.fetchWord).isTrapAt 0x25#8) ∨
    (s.Fetches ∧ ∃ kind, t.status = .faulted { kind := kind, address := s.pc, word := s.fetchWord } ∧
      ((kind = .reservedOpcode ∧ field s.fetchWord 12 4 = 0xD#4) ∨
       (kind = .unimplementedRTI ∧ field s.fetchWord 12 4 = 0x8#4) ∨
       (kind = .trapScanOverrun ∧
         ((decode s.fetchWord).isTrapAt 0x22#8 ∨ (decode s.fetchWord).isTrapAt 0x24#8))))) ∧
  (∀ s : State, s.status ≠ .running → step s = .fault .runEnded)

/-! ## What instructions may touch -/

/-- Every instruction answers a next state, in every state and whatever its operands: none is refused, and none stops
the machine without its own effect. -/
def Obligations.EveryInstructionCompletes : Prop :=
  (∀ (i : Instr) (s : State), ∃ t, exec i s = .next t) ∧
  (∀ s : State, s.Fetches → ∃ t, step s = .next t)

/-- 10_state.md R37: ADD, AND, NOT, LD, LDI, LDR and LEA set COND from their own destination, nothing else writes it,
and nothing but BR reads it: another COND changes no other result of another instruction. -/
def Obligations.CondWritersAndReader : Prop :=
  (∀ i s t, exec i s = .next t →
    match i.flagDest with
    | some dr => t.cond = condOf (t.reg dr)
    | none => t.cond = s.cond) ∧
  (∀ s t, completeInputWait s = .next t → t.cond = s.cond) ∧
  (∀ i s t c, (∀ nzp off9, i ≠ .br nzp off9) → exec i s = .next t →
    exec i { s with cond := c } = .next (if i.flagDest.isSome then t else { t with cond := c }))

/-- The general-register frame (10_state.md R32): an instruction leaves every register it does not write, in the
completion of an input wait every register but R0, and a stop request all. -/
def Obligations.RegisterFrame : Prop :=
  (∀ i s t, exec i s = .next t → ∀ r, r ∉ i.gprWrites s.params → t.reg r = s.reg r) ∧
  (∀ s t, completeInputWait s = .next t → ∀ r, r ≠ 0 → t.reg r = s.reg r) ∧
  (∀ s t : State, step s = .next t → s.stopRequest = true → ∀ r, t.reg r = s.reg r)

/-- An instruction's results do not depend on a register it does not read (10_state.md R33): give such a register
another value, and the next state is the same but perhaps for that register, which then holds the given value. -/
def Obligations.RegisterReaders : Prop :=
  ∀ (i : Instr) (s t : State) (r : RegIdx) (v : Word), r ∉ i.gprReads → exec i s = .next t →
    ∃ t', exec i (s.setReg r v) = .next t' ∧ (t' = t ∨ t' = t.setReg r v)

/-- The PC frame (10_state.md R34): only BR, JMP, RET, JSR and JSRR replace PC; the input wait and a stop request leave
it. -/
def Obligations.PcFrame : Prop :=
  (∀ i s t, exec i s = .next t → i.writesPc = false → t.pc = s.pc) ∧
  (∀ s t, step s = .next t → ¬ s.Fetches → t.pc = s.pc)

/-- The memory frame (20_memory.md R60, R71; 90_conflicts.md C4): every address reads as before, but the one a store
stores to and, when the instruction reads KBSR_ADDR through the bridge, the two keyboard words. An instruction that
neither stores nor polls leaves all of memory, TRAP among them. -/
def Obligations.MemoryFrame : Prop :=
  ∀ i s t, s.mem.wf → exec i s = .next t →
    (∀ b, i.storeAddr s ≠ some b → (i.polls s → b ≠ s.params.kbsrAddr ∧ b ≠ s.params.kbdrAddr) →
      t.plainRead b = s.plainRead b) ∧
    (i.storeAddr s = none → ¬ i.polls s → t.mem = s.mem)

/-- Host input is taken only by a poll and by the completion of GETC or IN, and always from the front; what a step takes
it adds to the characters consumed (20_memory.md R71, 10_state.md R42, 40_cycle.md R127; log entry 21). -/
def Obligations.InputTakenOnlyByPollOrWait : Prop :=
  (∀ i s t, exec i s = .next t → ¬ i.polls s → t.input = s.input ∧ t.consumed = s.consumed) ∧
  (∀ s t, step s = .next t →
    ∃ cs, s.input = cs ++ t.input ∧ t.consumed = s.consumed ++ cs ∧ cs.length ≤ 3) ∧
  (∀ s t, step s = .next t → s.Fetches → s.pc ≠ s.params.kbsrAddr →
    ¬ (decode s.fetchWord).polls s.afterFetch → t.input = s.input ∧ t.consumed = s.consumed)

/-- The output frame: only the trap routines and the completion of IN write to the host, and what is written stays
written, in order (40_cycle.md R120, 60_exceptions.md R282). -/
def Obligations.OutputFrame : Prop :=
  (∀ i s t, exec i s = .next t → i.isTrap = false → t.output = s.output) ∧
  (∀ s t, step s = .next t → ∃ cs, t.output = s.output ++ cs)

/-- The run-state frame: an instruction leaves the parameters and the stop request, TRAP apart it leaves WAIT, and
RES, RTI and TRAP apart it leaves STATUS (10_state.md R38, R44; 00_scope.md R10). -/
def Obligations.RunStateFrame : Prop :=
  (∀ i s t, exec i s = .next t → t.params = s.params ∧ t.stopRequest = s.stopRequest) ∧
  (∀ i s t, exec i s = .next t → i.isTrap = false → t.wait = s.wait) ∧
  (∀ i s t, exec i s = .next t → i.isTrap = false → (∀ x, i ≠ .res x) → (∀ x, i ≠ .rti x) → t.status = s.status) ∧
  (∀ s t, step s = .next t → t.params = s.params)

/-! ## Invariants and launch -/

/-- The invariant holds at reset. The reset PC and the default registers are the model's named values (log entry 4). -/
def Obligations.InvAtReset : Prop := State.reset.Inv

/-- Every step from a state that meets the invariant, reached or not, leads to one that meets it. -/
def Obligations.StepKeepsInv : Prop := ∀ s t : State, s.Inv → step s = .next t → t.Inv

/-- Once COND holds exactly one flag it does for the rest of the run (10_state.md R43, 90_conflicts.md C2). -/
def Obligations.CondStaysOneFlag : Prop := ∀ s t : State, condOne s.cond → Reaches s t → condOne t.cond

/-- From every launch with legal parameters, every state that steps and host actions lead to meets the invariant. -/
def Obligations.LaunchedRunsMeetInv : Prop :=
  ∀ (p : Params) (gpr : Vector Word 8) (cond : BitVec 3) (first : Image) (more : List Image) (t : State),
    p.wf → condLegal cond → Reaches (State.launch p gpr cond first more) t → t.Inv

/-- 70_reset_and_hazards.md R302: image word k after the origin o becomes MEM[o + k], big-endian in its file; words
past 0xFFFF are not loaded; a later image is loaded over the earlier ones; all over zero-filled memory. What is not
loaded, and which image wins, are the spec's own decisions (92 D33). -/
def Obligations.ImageLoading : Prop :=
  (∀ (m : Memory) (img : Image) (a : Nat), m.wf → a < 65536 →
    (m.loadImage img).read a =
      if img.origin.toNat ≤ a then img.words.getD (a - img.origin.toNat) (m.read a) else m.read a) ∧
  (∀ (p : Params) (gpr : Vector Word 8) (cond : BitVec 3) (first : Image) (more : List Image) (last : Image),
    (State.launch p gpr cond first []).mem = Memory.loadImage [] first ∧
    (State.launch p gpr cond first (more ++ [last])).mem = (State.launch p gpr cond first more).mem.loadImage last) ∧
  (∀ a, Memory.read [] a = 0x0000#16) ∧
  (∀ hi lo : Byte, (bigEndianWord hi lo).extractLsb' 8 8 = hi ∧ (bigEndianWord hi lo).extractLsb' 0 8 = lo) ∧
  (∀ (bs : List (Byte × Byte)) (o : Byte × Byte),
    Image.ofBytes ((o :: bs).flatMap fun b => [b.1, b.2]) =
      some { origin := bigEndianWord o.1 o.2, words := bs.map fun b => bigEndianWord b.1 b.2 })

/-- 70_reset_and_hazards.md R303, R304: what a launch leaves in PC, the registers, COND, STATUS, WAIT and the stop
request, and the defaults of RESET_GPR and RESET_COND, which are the values the model names for reset (92 D7, D8; log
entry 4). -/
def Obligations.LaunchValues : Prop :=
  (∀ (p : Params) (gpr : Vector Word 8) (cond : BitVec 3) (first : Image) (more : List Image),
    let s := State.launch p gpr cond first more
    s.pc = first.origin ∧ s.regs = gpr ∧ s.cond = cond ∧ s.status = .running ∧ s.wait = .none ∧
    s.stopRequest = false) ∧
  (∀ r, State.reset.reg r = 0x0000#16) ∧ State.reset.cond = 0b000#3 ∧ State.reset.status = .running ∧
  State.reset.wait = .none ∧ State.reset.stopRequest = false ∧ State.reset.mem = []

/-! ## The end of a run -/

/-- What the end state says of PC and of the input (40_cycle.md R127). PC is the HALT's or the faulting instruction's
address plus one, and after an interruption the address of the next instruction not fetched. The characters consumed
and those still queued are together the ones the host has appended, in order: none before a launch's first step, one
more by each append, and the same by every step. That both lists stand in State is the model's choice (log entries 10
and 21). -/
def Obligations.EndState : Prop :=
  (∀ s t : State, step s = .next t → t.status ≠ .running →
    t.pc = if t.status = .interrupted then s.pc else s.pc + 1) ∧
  (∀ (p : Params) (gpr : Vector Word 8) (cond : BitVec 3) (first : Image) (more : List Image),
    (State.launch p gpr cond first more).consumed = [] ∧ (State.launch p gpr cond first more).input = []) ∧
  (∀ (c : Byte) (s : State), hostAct (.appendInput c) s = { s with input := s.input ++ [c] }) ∧
  (∀ s : State, (hostAct .requestStop s).consumed = s.consumed ∧ (hostAct .requestStop s).input = s.input) ∧
  (∀ s t : State, step s = .next t → t.consumed ++ t.input = s.consumed ++ s.input)
end

