-- ==== Sys2Proof/Laws/Decode.lean ====
section
/-! SUPPORT. Reading a field of a word built from placed fields, and the decoder one opcode at a time. -/

namespace Sys2Proof

/-! ## Fields -/

theorem getElem_field (w : Word) (lo len i : Nat) (hi : i < len) : (field w lo len)[i] = w.getLsbD (lo + i) := by
  simp [field]

theorem field_or (a b : Word) (lo len : Nat) : field (a ||| b) lo len = field a lo len ||| field b lo len := by
  ext i hi
  simp [field]

/-- A placed field reads back whole from its own position. -/
theorem field_place_same {n lo : Nat} (v : BitVec n) (h : lo + n ≤ 16) : field (place v lo) lo n = v := by
  ext i hi
  have h16 : lo + i < 16 := by omega
  simp [field, place, h16, hi, BitVec.getLsbD_eq_getElem]

/-- A placed field reads as zero from a position it does not reach. -/
theorem field_place_disjoint {n lo lo' len : Nat} (v : BitVec n) (h : lo' + len ≤ lo ∨ lo + n ≤ lo') :
    field (place v lo) lo' len = 0#len := by
  ext i hi
  simp only [field, place, BitVec.getElem_extractLsb', BitVec.getLsbD_shiftLeft, BitVec.getElem_zero,
    BitVec.getLsbD_setWidth]
  rcases h with h | h
  · have : lo' + i < lo := by omega
    simp [this]
  · rw [BitVec.getLsbD_of_ge v _ (by omega)]
    simp

theorem getLsbD_place {n : Nat} (v : BitVec n) (lo i : Nat) :
    (place v lo).getLsbD i = (decide (i < 16) && decide (lo ≤ i) && v.getLsbD (i - lo)) := by
  by_cases h1 : i < 16 <;> by_cases h2 : lo ≤ i <;> simp [place, h1, h2]

/-- A register field is its three bits. -/
theorem ofFin_regField (w : Word) (lo : Nat) : (BitVec.ofFin (regField w lo) : BitVec 3) = field w lo 3 := rfl

theorem placeReg_regField (w : Word) (lo lo' : Nat) : placeReg (regField w lo) lo' = place (field w lo 3) lo' := rfl

theorem regField_eq_iff (w : Word) (lo : Nat) (r : RegIdx) :
    regField w lo = r ↔ field w lo 3 = (BitVec.ofFin r : BitVec 3) := by
  constructor
  · rintro rfl; rfl
  · intro h; simp only [regField, h]

/-! ## The decoder, opcode by opcode (30_encoding.md R99) -/

section
variable {w : Word}

theorem decode_opADD (h : opcode w = opADD) : decode w =
    if fieldImmFlag w = 0#1 then .addReg (fieldDR w) (fieldSR1 w) (field w 3 2) (fieldSR2 w)
    else .addImm (fieldDR w) (fieldSR1 w) (fieldImm5 w) := by
  simp only [decode, h]; rfl
theorem decode_opAND (h : opcode w = opAND) : decode w =
    if fieldImmFlag w = 0#1 then .andReg (fieldDR w) (fieldSR1 w) (field w 3 2) (fieldSR2 w)
    else .andImm (fieldDR w) (fieldSR1 w) (fieldImm5 w) := by
  simp only [decode, h]; rfl
theorem decode_opNOT (h : opcode w = opNOT) : decode w = .not (fieldDR w) (fieldSR1 w) (field w 0 6) := by
  simp only [decode, h]; rfl
theorem decode_opBR (h : opcode w = opBR) : decode w = .br (fieldNzp w) (fieldOff9 w) := by
  simp only [decode, h]; rfl
theorem decode_opJMP (h : opcode w = opJMP) : decode w = decodeJmp w := by
  simp only [decode, h]; rfl
theorem decode_opJSR (h : opcode w = opJSR) : decode w =
    if fieldJsrFlag w = 1#1 then .jsr (fieldOff11 w) else .jsrr (field w 9 2) (fieldSR1 w) (field w 0 6) := by
  simp only [decode, h]; rfl
theorem decode_opLD (h : opcode w = opLD) : decode w = .ld (fieldDR w) (fieldOff9 w) := by
  simp only [decode, h]; rfl
theorem decode_opLDI (h : opcode w = opLDI) : decode w = .ldi (fieldDR w) (fieldOff9 w) := by
  simp only [decode, h]; rfl
theorem decode_opLDR (h : opcode w = opLDR) : decode w = .ldr (fieldDR w) (fieldSR1 w) (fieldOff6 w) := by
  simp only [decode, h]; rfl
theorem decode_opLEA (h : opcode w = opLEA) : decode w = .lea (fieldDR w) (fieldOff9 w) := by
  simp only [decode, h]; rfl
theorem decode_opST (h : opcode w = opST) : decode w = .st (fieldDR w) (fieldOff9 w) := by
  simp only [decode, h]; rfl
theorem decode_opSTI (h : opcode w = opSTI) : decode w = .sti (fieldDR w) (fieldOff9 w) := by
  simp only [decode, h]; rfl
theorem decode_opSTR (h : opcode w = opSTR) : decode w = .str (fieldDR w) (fieldSR1 w) (fieldOff6 w) := by
  simp only [decode, h]; rfl
theorem decode_opRES (h : opcode w = opRES) : decode w = .res (field w 0 12) := by
  simp only [decode, h]; rfl
theorem decode_opRTI (h : opcode w = opRTI) : decode w = .rti (field w 0 12) := by
  simp only [decode, h]; rfl
theorem decode_opTRAP (h : opcode w = opTRAP) : decode w = decodeTrap (field w 8 4) (fieldVect w) := by
  simp only [decode, h]; rfl

end

/-- The sixteen opcodes (30_encoding.md R91). -/
theorem opcode_cases (o : BitVec 4) : o = opBR ∨ o = opADD ∨ o = opLD ∨ o = opST ∨ o = opJSR ∨ o = opAND ∨ o = opLDR ∨
    o = opSTR ∨ o = opRTI ∨ o = opNOT ∨ o = opLDI ∨ o = opSTI ∨ o = opJMP ∨ o = opRES ∨ o = opLEA ∨ o = opTRAP := by
  revert o
  decide

end Sys2Proof
end

