-- ==== Sys2Proof/Laws/Memory.lean ====
section
/-! SUPPORT. The laws of the word memory: read after write, and that every memory operation keeps the canonical form,
in which equal memories are equal data. -/

namespace Sys2Proof.Machine.Memory

/-- An address below every listed one reads as the unlisted word. -/
theorem read_of_lt_keys {m : Memory} {a : Nat} (h : ∀ c ∈ m, a < c.1) : m.read a = unlisted := by
  induction m with
  | nil => rfl
  | cons c m ih =>
    have hc : c.1 ≠ a := by have := h c (by simp); omega
    simp only [read, hc, if_false]
    exact ih fun d hd => h d (by simp [hd])

/-- After a write, the address reads the word written and every other address reads as before. -/
theorem read_write {m : Memory} (h : m.Pairwise (fun c d => c.1 < d.1)) (a b : Nat) (v : Word) :
    (m.write a v).read b = if b = a then v else m.read b := by
  induction m with
  | nil =>
    by_cases hv : v = unlisted <;> by_cases hb : a = b <;> simp [write, read, hv, hb, eq_comm (a := b)]
  | cons c m ih =>
    obtain ⟨k, w⟩ := c
    obtain ⟨hk, hm⟩ := List.pairwise_cons.mp h
    have below : ∀ {x}, x ≤ k → Memory.read m x = unlisted := fun hx =>
      read_of_lt_keys fun d hd => Nat.lt_of_le_of_lt hx (hk d hd)
    rcases Nat.lt_trichotomy a k with hlt | rfl | hgt
    · have hka : k ≠ a := by omega
      by_cases hv : v = unlisted <;> by_cases hb : a = b
      · subst hb; simp [write, read, hlt, hv, hka, below (Nat.le_of_lt hlt)]
      · simp [write, hlt, hv, Ne.symm hb]
      · subst hb; simp [write, read, hlt, hv]
      · simp [write, read, hlt, hv, hb, Ne.symm hb]
    · by_cases hv : v = unlisted <;> by_cases hb : a = b
      · subst hb; simp [write, hv, below (Nat.le_refl a)]
      · simp [write, read, hv, hb, Ne.symm hb]
      · subst hb; simp [write, read, hv]
      · simp [write, read, hv, hb, Ne.symm hb]
    · have hak : ¬ a < k := by omega
      have hne : a ≠ k := by omega
      by_cases hb : k = b
      · subst hb; simp [write, read, hak, hne, Ne.symm hne]
      · simp [write, read, hak, hne, hb, ih hm]

/-- A write lists no address but its own that was not listed before, and every cell is an old one or the new one. -/
theorem mem_write {m : Memory} {a : Nat} {v : Word} {c : Cell} (h : c ∈ m.write a v) :
    c ∈ m ∨ (c = (a, v) ∧ v ≠ unlisted) := by
  induction m with
  | nil => by_cases hv : v = unlisted <;> simp_all [write]
  | cons d m ih =>
    obtain ⟨k, w⟩ := d
    simp only [write] at h
    split_ifs at h <;> simp_all
    · tauto
    · tauto
    · rcases h with h | h
      · exact .inl (.inl h)
      · rcases ih h with h | h
        · exact .inl (.inr h)
        · exact .inr h

/-- A write keeps the canonical form. -/
theorem write_wf {m : Memory} (h : m.wf) {a : Nat} (ha : a < memWords) (v : Word) : (m.write a v).wf := by
  refine ⟨?_, fun c hc => ?_⟩
  · have hp := h.1
    clear h
    induction m with
    | nil => by_cases hv : v = unlisted <;> simp [write, hv]
    | cons d m ih =>
      obtain ⟨k, w⟩ := d
      obtain ⟨hk, hm⟩ := List.pairwise_cons.mp hp
      simp only [write]
      split_ifs with h1 h2 h3 h4
      · exact hp
      · refine List.pairwise_cons.mpr ⟨fun c hc => ?_, hp⟩
        rcases List.mem_cons.mp hc with rfl | hc
        · exact h1
        · exact Nat.lt_trans h1 (hk c hc)
      · exact hm
      · subst h3; exact List.pairwise_cons.mpr ⟨hk, hm⟩
      · refine List.pairwise_cons.mpr ⟨fun c hc => ?_, ih hm⟩
        rcases mem_write hc with hc | ⟨rfl, -⟩
        · exact hk c hc
        · show k < a
          omega
  · rcases mem_write hc with hc | ⟨rfl, hv⟩
    · exact h.2 c hc
    · exact ⟨ha, hv⟩

/-- Loading words keeps the canonical form. -/
theorem load_wf {m : Memory} (h : m.wf) (a : Nat) (ws : List Word) : (m.load a ws).wf := by
  induction ws generalizing m a with
  | nil => exact h
  | cons w ws ih =>
    simp only [load]
    split_ifs with ha
    · exact ih (write_wf h ha w) _
    · exact h

/-- Loading an image keeps the canonical form. -/
theorem loadImage_wf {m : Memory} (h : m.wf) (img : Image) : (m.loadImage img).wf := load_wf h _ _

end Sys2Proof.Machine.Memory
end

