-- ==== Sys2Proof/Laws/State.lean ====
section
/-! SUPPORT. One lemma per field per update of the state, and per field for the operations that are not one update. -/

namespace Sys2Proof.Machine.State

variable (s : State)

/-! ### setReg -/

@[simp] theorem setReg_mem (r : RegIdx) (v : Word) : (s.setReg r v).mem = s.mem := rfl
@[simp] theorem setReg_regs (r : RegIdx) (v : Word) : (s.setReg r v).regs = s.regs.set r v := rfl
@[simp] theorem setReg_pc (r : RegIdx) (v : Word) : (s.setReg r v).pc = s.pc := rfl
@[simp] theorem setReg_cond (r : RegIdx) (v : Word) : (s.setReg r v).cond = s.cond := rfl
@[simp] theorem setReg_status (r : RegIdx) (v : Word) : (s.setReg r v).status = s.status := rfl
@[simp] theorem setReg_wait (r : RegIdx) (v : Word) : (s.setReg r v).wait = s.wait := rfl
@[simp] theorem setReg_stopRequest (r : RegIdx) (v : Word) : (s.setReg r v).stopRequest = s.stopRequest := rfl
@[simp] theorem setReg_input (r : RegIdx) (v : Word) : (s.setReg r v).input = s.input := rfl
@[simp] theorem setReg_consumed (r : RegIdx) (v : Word) : (s.setReg r v).consumed = s.consumed := rfl
@[simp] theorem setReg_output (r : RegIdx) (v : Word) : (s.setReg r v).output = s.output := rfl
@[simp] theorem setReg_params (r : RegIdx) (v : Word) : (s.setReg r v).params = s.params := rfl

/-! ### setPc -/

@[simp] theorem setPc_mem (v : Word) : (s.setPc v).mem = s.mem := rfl
@[simp] theorem setPc_regs (v : Word) : (s.setPc v).regs = s.regs := rfl
@[simp] theorem setPc_pc (v : Word) : (s.setPc v).pc = v := rfl
@[simp] theorem setPc_cond (v : Word) : (s.setPc v).cond = s.cond := rfl
@[simp] theorem setPc_status (v : Word) : (s.setPc v).status = s.status := rfl
@[simp] theorem setPc_wait (v : Word) : (s.setPc v).wait = s.wait := rfl
@[simp] theorem setPc_stopRequest (v : Word) : (s.setPc v).stopRequest = s.stopRequest := rfl
@[simp] theorem setPc_input (v : Word) : (s.setPc v).input = s.input := rfl
@[simp] theorem setPc_consumed (v : Word) : (s.setPc v).consumed = s.consumed := rfl
@[simp] theorem setPc_output (v : Word) : (s.setPc v).output = s.output := rfl
@[simp] theorem setPc_params (v : Word) : (s.setPc v).params = s.params := rfl

/-! ### setCond -/

@[simp] theorem setCond_mem (c : BitVec 3) : (s.setCond c).mem = s.mem := rfl
@[simp] theorem setCond_regs (c : BitVec 3) : (s.setCond c).regs = s.regs := rfl
@[simp] theorem setCond_pc (c : BitVec 3) : (s.setCond c).pc = s.pc := rfl
@[simp] theorem setCond_cond (c : BitVec 3) : (s.setCond c).cond = c := rfl
@[simp] theorem setCond_status (c : BitVec 3) : (s.setCond c).status = s.status := rfl
@[simp] theorem setCond_wait (c : BitVec 3) : (s.setCond c).wait = s.wait := rfl
@[simp] theorem setCond_stopRequest (c : BitVec 3) : (s.setCond c).stopRequest = s.stopRequest := rfl
@[simp] theorem setCond_input (c : BitVec 3) : (s.setCond c).input = s.input := rfl
@[simp] theorem setCond_consumed (c : BitVec 3) : (s.setCond c).consumed = s.consumed := rfl
@[simp] theorem setCond_output (c : BitVec 3) : (s.setCond c).output = s.output := rfl
@[simp] theorem setCond_params (c : BitVec 3) : (s.setCond c).params = s.params := rfl

/-! ### memWrite -/

@[simp] theorem memWrite_mem (a v : Word) : (s.memWrite a v).mem = s.mem.write a.toNat v := rfl
@[simp] theorem memWrite_regs (a v : Word) : (s.memWrite a v).regs = s.regs := rfl
@[simp] theorem memWrite_pc (a v : Word) : (s.memWrite a v).pc = s.pc := rfl
@[simp] theorem memWrite_cond (a v : Word) : (s.memWrite a v).cond = s.cond := rfl
@[simp] theorem memWrite_status (a v : Word) : (s.memWrite a v).status = s.status := rfl
@[simp] theorem memWrite_wait (a v : Word) : (s.memWrite a v).wait = s.wait := rfl
@[simp] theorem memWrite_stopRequest (a v : Word) : (s.memWrite a v).stopRequest = s.stopRequest := rfl
@[simp] theorem memWrite_input (a v : Word) : (s.memWrite a v).input = s.input := rfl
@[simp] theorem memWrite_consumed (a v : Word) : (s.memWrite a v).consumed = s.consumed := rfl
@[simp] theorem memWrite_output (a v : Word) : (s.memWrite a v).output = s.output := rfl
@[simp] theorem memWrite_params (a v : Word) : (s.memWrite a v).params = s.params := rfl

/-! ### hostWrite -/

@[simp] theorem hostWrite_mem (cs : List Byte) : (s.hostWrite cs).mem = s.mem := rfl
@[simp] theorem hostWrite_regs (cs : List Byte) : (s.hostWrite cs).regs = s.regs := rfl
@[simp] theorem hostWrite_pc (cs : List Byte) : (s.hostWrite cs).pc = s.pc := rfl
@[simp] theorem hostWrite_cond (cs : List Byte) : (s.hostWrite cs).cond = s.cond := rfl
@[simp] theorem hostWrite_status (cs : List Byte) : (s.hostWrite cs).status = s.status := rfl
@[simp] theorem hostWrite_wait (cs : List Byte) : (s.hostWrite cs).wait = s.wait := rfl
@[simp] theorem hostWrite_stopRequest (cs : List Byte) : (s.hostWrite cs).stopRequest = s.stopRequest := rfl
@[simp] theorem hostWrite_input (cs : List Byte) : (s.hostWrite cs).input = s.input := rfl
@[simp] theorem hostWrite_consumed (cs : List Byte) : (s.hostWrite cs).consumed = s.consumed := rfl
@[simp] theorem hostWrite_output (cs : List Byte) : (s.hostWrite cs).output = s.output ++ cs := rfl
@[simp] theorem hostWrite_params (cs : List Byte) : (s.hostWrite cs).params = s.params := rfl

/-! ### hostRead -/

@[simp] theorem hostRead_mem (c : Byte) (rest : List Byte) : (s.hostRead c rest).mem = s.mem := rfl
@[simp] theorem hostRead_regs (c : Byte) (rest : List Byte) : (s.hostRead c rest).regs = s.regs := rfl
@[simp] theorem hostRead_pc (c : Byte) (rest : List Byte) : (s.hostRead c rest).pc = s.pc := rfl
@[simp] theorem hostRead_cond (c : Byte) (rest : List Byte) : (s.hostRead c rest).cond = s.cond := rfl
@[simp] theorem hostRead_status (c : Byte) (rest : List Byte) : (s.hostRead c rest).status = s.status := rfl
@[simp] theorem hostRead_wait (c : Byte) (rest : List Byte) : (s.hostRead c rest).wait = s.wait := rfl
@[simp] theorem hostRead_stopRequest (c : Byte) (rest : List Byte) :
    (s.hostRead c rest).stopRequest = s.stopRequest := rfl
@[simp] theorem hostRead_input (c : Byte) (rest : List Byte) : (s.hostRead c rest).input = rest := rfl
@[simp] theorem hostRead_consumed (c : Byte) (rest : List Byte) :
    (s.hostRead c rest).consumed = s.consumed ++ [c] := rfl
@[simp] theorem hostRead_output (c : Byte) (rest : List Byte) : (s.hostRead c rest).output = s.output := rfl
@[simp] theorem hostRead_params (c : Byte) (rest : List Byte) : (s.hostRead c rest).params = s.params := rfl

/-! ### raiseFault -/

@[simp] theorem raiseFault_mem (k : FaultKind) (w : Word) : (s.raiseFault k w).mem = s.mem := rfl
@[simp] theorem raiseFault_regs (k : FaultKind) (w : Word) : (s.raiseFault k w).regs = s.regs := rfl
@[simp] theorem raiseFault_pc (k : FaultKind) (w : Word) : (s.raiseFault k w).pc = s.pc := rfl
@[simp] theorem raiseFault_cond (k : FaultKind) (w : Word) : (s.raiseFault k w).cond = s.cond := rfl
@[simp] theorem raiseFault_status (k : FaultKind) (w : Word) :
    (s.raiseFault k w).status = .faulted { kind := k, address := s.pc - 1, word := w } := rfl
@[simp] theorem raiseFault_wait (k : FaultKind) (w : Word) : (s.raiseFault k w).wait = s.wait := rfl
@[simp] theorem raiseFault_stopRequest (k : FaultKind) (w : Word) :
    (s.raiseFault k w).stopRequest = s.stopRequest := rfl
@[simp] theorem raiseFault_input (k : FaultKind) (w : Word) : (s.raiseFault k w).input = s.input := rfl
@[simp] theorem raiseFault_consumed (k : FaultKind) (w : Word) : (s.raiseFault k w).consumed = s.consumed := rfl
@[simp] theorem raiseFault_output (k : FaultKind) (w : Word) : (s.raiseFault k w).output = s.output := rfl
@[simp] theorem raiseFault_params (k : FaultKind) (w : Word) : (s.raiseFault k w).params = s.params := rfl

/-! ### setResult -/

@[simp] theorem setResult_mem (dr : RegIdx) (v : Word) : (s.setResult dr v).mem = s.mem := rfl
@[simp] theorem setResult_regs (dr : RegIdx) (v : Word) : (s.setResult dr v).regs = s.regs.set dr v := rfl
@[simp] theorem setResult_pc (dr : RegIdx) (v : Word) : (s.setResult dr v).pc = s.pc := rfl
@[simp] theorem setResult_cond (dr : RegIdx) (v : Word) : (s.setResult dr v).cond = condOf v := rfl
@[simp] theorem setResult_status (dr : RegIdx) (v : Word) : (s.setResult dr v).status = s.status := rfl
@[simp] theorem setResult_wait (dr : RegIdx) (v : Word) : (s.setResult dr v).wait = s.wait := rfl
@[simp] theorem setResult_stopRequest (dr : RegIdx) (v : Word) :
    (s.setResult dr v).stopRequest = s.stopRequest := rfl
@[simp] theorem setResult_input (dr : RegIdx) (v : Word) : (s.setResult dr v).input = s.input := rfl
@[simp] theorem setResult_consumed (dr : RegIdx) (v : Word) : (s.setResult dr v).consumed = s.consumed := rfl
@[simp] theorem setResult_output (dr : RegIdx) (v : Word) : (s.setResult dr v).output = s.output := rfl
@[simp] theorem setResult_params (dr : RegIdx) (v : Word) : (s.setResult dr v).params = s.params := rfl

/-! ### takeStop -/

@[simp] theorem takeStop_mem : (s.takeStop).mem = s.mem := rfl
@[simp] theorem takeStop_regs : (s.takeStop).regs = s.regs := rfl
@[simp] theorem takeStop_pc : (s.takeStop).pc = s.pc := rfl
@[simp] theorem takeStop_cond : (s.takeStop).cond = s.cond := rfl
@[simp] theorem takeStop_status : (s.takeStop).status = .interrupted := rfl
@[simp] theorem takeStop_wait : (s.takeStop).wait = s.wait := rfl
@[simp] theorem takeStop_stopRequest : (s.takeStop).stopRequest = s.stopRequest := rfl
@[simp] theorem takeStop_input : (s.takeStop).input = s.input := rfl
@[simp] theorem takeStop_consumed : (s.takeStop).consumed = s.consumed := rfl
@[simp] theorem takeStop_output : (s.takeStop).output = s.output := rfl
@[simp] theorem takeStop_params : (s.takeStop).params = s.params := rfl

/-! ### inputArrived -/

@[simp] theorem inputArrived_mem (c : Byte) (rest : List Byte) : (s.inputArrived c rest).mem = s.mem := rfl
@[simp] theorem inputArrived_regs (c : Byte) (rest : List Byte) :
    (s.inputArrived c rest).regs = s.regs.set 0 (c.setWidth 16) := rfl
@[simp] theorem inputArrived_pc (c : Byte) (rest : List Byte) : (s.inputArrived c rest).pc = s.pc := rfl
@[simp] theorem inputArrived_cond (c : Byte) (rest : List Byte) : (s.inputArrived c rest).cond = s.cond := rfl
@[simp] theorem inputArrived_status (c : Byte) (rest : List Byte) : (s.inputArrived c rest).status = s.status := rfl
@[simp] theorem inputArrived_wait (c : Byte) (rest : List Byte) : (s.inputArrived c rest).wait = .none := rfl
@[simp] theorem inputArrived_stopRequest (c : Byte) (rest : List Byte) :
    (s.inputArrived c rest).stopRequest = s.stopRequest := rfl
@[simp] theorem inputArrived_input (c : Byte) (rest : List Byte) : (s.inputArrived c rest).input = rest := rfl
@[simp] theorem inputArrived_consumed (c : Byte) (rest : List Byte) :
    (s.inputArrived c rest).consumed = s.consumed ++ [c] := rfl
@[simp] theorem inputArrived_output (c : Byte) (rest : List Byte) :
    (s.inputArrived c rest).output = s.output ++ (if s.wait = .inWait ∧ s.params.inEcho = true then [c] else []) := rfl
@[simp] theorem inputArrived_params (c : Byte) (rest : List Byte) : (s.inputArrived c rest).params = s.params := rfl

/-! ### poll -/

@[simp] theorem poll_regs : (s.poll).regs = s.regs := by
  unfold poll; split <;> rfl
@[simp] theorem poll_pc : (s.poll).pc = s.pc := by
  unfold poll; split <;> rfl
@[simp] theorem poll_cond : (s.poll).cond = s.cond := by
  unfold poll; split <;> rfl
@[simp] theorem poll_status : (s.poll).status = s.status := by
  unfold poll; split <;> rfl
@[simp] theorem poll_wait : (s.poll).wait = s.wait := by
  unfold poll; split <;> rfl
@[simp] theorem poll_stopRequest : (s.poll).stopRequest = s.stopRequest := by
  unfold poll; split <;> rfl
@[simp] theorem poll_output : (s.poll).output = s.output := by
  unfold poll; split <;> rfl
@[simp] theorem poll_params : (s.poll).params = s.params := by
  unfold poll; split <;> rfl

/-! ### afterRead -/

@[simp] theorem afterRead_regs (a : Word) : (s.afterRead a).regs = s.regs := by
  unfold afterRead; split <;> simp
@[simp] theorem afterRead_pc (a : Word) : (s.afterRead a).pc = s.pc := by
  unfold afterRead; split <;> simp
@[simp] theorem afterRead_cond (a : Word) : (s.afterRead a).cond = s.cond := by
  unfold afterRead; split <;> simp
@[simp] theorem afterRead_status (a : Word) : (s.afterRead a).status = s.status := by
  unfold afterRead; split <;> simp
@[simp] theorem afterRead_wait (a : Word) : (s.afterRead a).wait = s.wait := by
  unfold afterRead; split <;> simp
@[simp] theorem afterRead_stopRequest (a : Word) : (s.afterRead a).stopRequest = s.stopRequest := by
  unfold afterRead; split <;> simp
@[simp] theorem afterRead_output (a : Word) : (s.afterRead a).output = s.output := by
  unfold afterRead; split <;> simp
@[simp] theorem afterRead_params (a : Word) : (s.afterRead a).params = s.params := by
  unfold afterRead; split <;> simp

/-! ### trapLink -/

@[simp] theorem trapLink_mem : (s.trapLink).mem = s.mem := by
  unfold trapLink; split <;> rfl
@[simp] theorem trapLink_pc : (s.trapLink).pc = s.pc := by
  unfold trapLink; split <;> rfl
@[simp] theorem trapLink_cond : (s.trapLink).cond = s.cond := by
  unfold trapLink; split <;> rfl
@[simp] theorem trapLink_status : (s.trapLink).status = s.status := by
  unfold trapLink; split <;> rfl
@[simp] theorem trapLink_wait : (s.trapLink).wait = s.wait := by
  unfold trapLink; split <;> rfl
@[simp] theorem trapLink_stopRequest : (s.trapLink).stopRequest = s.stopRequest := by
  unfold trapLink; split <;> rfl
@[simp] theorem trapLink_input : (s.trapLink).input = s.input := by
  unfold trapLink; split <;> rfl
@[simp] theorem trapLink_consumed : (s.trapLink).consumed = s.consumed := by
  unfold trapLink; split <;> rfl
@[simp] theorem trapLink_output : (s.trapLink).output = s.output := by
  unfold trapLink; split <;> rfl
@[simp] theorem trapLink_params : (s.trapLink).params = s.params := by
  unfold trapLink; split <;> rfl

/-! ### afterFetch -/

@[simp] theorem afterFetch_regs : s.afterFetch.regs = s.regs := by
  simp [afterFetch]
@[simp] theorem afterFetch_cond : s.afterFetch.cond = s.cond := by
  simp [afterFetch]
@[simp] theorem afterFetch_status : s.afterFetch.status = s.status := by
  simp [afterFetch]
@[simp] theorem afterFetch_wait : s.afterFetch.wait = s.wait := by
  simp [afterFetch]
@[simp] theorem afterFetch_stopRequest : s.afterFetch.stopRequest = s.stopRequest := by
  simp [afterFetch]
@[simp] theorem afterFetch_output : s.afterFetch.output = s.output := by
  simp [afterFetch]
@[simp] theorem afterFetch_params : s.afterFetch.params = s.params := by
  simp [afterFetch]
@[simp] theorem afterFetch_pc : s.afterFetch.pc = s.pc + 1 := rfl
@[simp] theorem afterFetch_mem : s.afterFetch.mem = (s.afterRead s.pc).mem := rfl
@[simp] theorem afterFetch_input : s.afterFetch.input = (s.afterRead s.pc).input := rfl
@[simp] theorem afterFetch_consumed : s.afterFetch.consumed = (s.afterRead s.pc).consumed := rfl

/-! ### Registers -/

theorem reg_eq (r : RegIdx) : s.reg r = s.regs[r] := rfl

/-- A register reads what was last written to it, and a write leaves every other register alone. -/
theorem reg_setReg (r r' : RegIdx) (v : Word) : (s.setReg r v).reg r' = if r' = r then v else s.reg r' := by
  simp only [reg, setReg, Fin.getElem_fin, Vector.getElem_set, Fin.ext_iff, eq_comm]

@[simp] theorem reg_setReg_same (r : RegIdx) (v : Word) : (s.setReg r v).reg r = v := by simp [reg_setReg]

theorem reg_setReg_other {r r' : RegIdx} (v : Word) (h : r' ≠ r) : (s.setReg r v).reg r' = s.reg r' := by
  simp [reg_setReg, h]

/-- Two states with the same registers read the same. -/
theorem reg_congr {s t : State} (h : t.regs = s.regs) (r : RegIdx) : t.reg r = s.reg r := by simp [reg, h]

@[simp] theorem setPc_reg (v : Word) (r : RegIdx) : (s.setPc v).reg r = s.reg r := rfl
@[simp] theorem setCond_reg (c : BitVec 3) (r : RegIdx) : (s.setCond c).reg r = s.reg r := rfl
@[simp] theorem memWrite_reg (a v : Word) (r : RegIdx) : (s.memWrite a v).reg r = s.reg r := rfl
@[simp] theorem hostWrite_reg (cs : List Byte) (r : RegIdx) : (s.hostWrite cs).reg r = s.reg r := rfl
@[simp] theorem hostRead_reg (c : Byte) (rest : List Byte) (r : RegIdx) : (s.hostRead c rest).reg r = s.reg r := rfl
@[simp] theorem raiseFault_reg (k : FaultKind) (w : Word) (r : RegIdx) : (s.raiseFault k w).reg r = s.reg r := rfl
@[simp] theorem takeStop_reg (r : RegIdx) : s.takeStop.reg r = s.reg r := rfl
@[simp] theorem poll_reg (r : RegIdx) : s.poll.reg r = s.reg r := reg_congr (by simp) r
@[simp] theorem afterRead_reg (a : Word) (r : RegIdx) : (s.afterRead a).reg r = s.reg r := reg_congr (by simp) r
@[simp] theorem afterFetch_reg (r : RegIdx) : s.afterFetch.reg r = s.reg r := reg_congr (by simp) r

theorem setResult_reg (dr r : RegIdx) (v : Word) :
    (s.setResult dr v).reg r = if r = dr then v else s.reg r := by
  simp [setResult, reg_setReg]

/-- TRAP's only register effect before its routine (45_trap.md R221). -/
theorem trapLink_reg (r : RegIdx) :
    s.trapLink.reg r = if s.params.trapLinksR7 = true ∧ r = 7 then s.pc else s.reg r := by
  unfold trapLink
  split <;> simp_all [reg_setReg]

/-- Setting the same register twice leaves the second value. -/
@[simp] theorem setReg_setReg (r : RegIdx) (v w : Word) : (s.setReg r v).setReg r w = s.setReg r w := by
  simp [setReg]

/-- Writes to different registers may be made in either order. -/
theorem setReg_comm {r r' : RegIdx} (v w : Word) (h : r ≠ r') :
    (s.setReg r v).setReg r' w = (s.setReg r' w).setReg r v := by
  have h' : (r : Nat) ≠ r' := fun e => h (Fin.ext e)
  simp only [setReg, Vector.set_comm _ _ h']

end Sys2Proof.Machine.State
end

