-- ==== Sys2Proof/Laws/Ops.lean ====
section
/-! SUPPORT. What each shared operation can do, once: the bridge, the fetch, the string scan, the trap dispatcher, the
input wait and the step. -/

namespace Sys2Proof.Machine

namespace State

variable (s : State)

/-! ## The bridge (20_memory.md R65 to R67) -/

theorem poll_nil (h : s.input = []) : s.poll = s.memWrite s.params.kbsrAddr 0x0000#16 := by simp [poll, h]

theorem poll_cons {c : Byte} {rest : List Byte} (h : s.input = c :: rest) : s.poll =
    ((s.memWrite s.params.kbsrAddr s.params.kbsrReady).memWrite s.params.kbdrAddr (c.setWidth 16)).hostRead c rest := by
  simp [poll, h]

/-- A poll consumes the oldest character, if there is one. -/
theorem poll_input : s.poll.input = s.input.tail := by
  cases h : s.input with
  | nil => simp [poll_nil s h, h]
  | cons c rest => simp [poll_cons s h]

/-- The character a poll consumes is the last one consumed after it. -/
theorem poll_consumed : s.poll.consumed = s.consumed ++ s.input.take 1 := by
  cases h : s.input with
  | nil => simp [poll_nil s h]
  | cons c rest => simp [poll_cons s h]

theorem afterRead_kbsr : s.afterRead s.params.kbsrAddr = s.poll := by simp [afterRead]

theorem afterRead_plain {a : Word} (h : a ≠ s.params.kbsrAddr) : s.afterRead a = s := by simp [afterRead, h]

theorem memRead_plain {a : Word} (h : a ≠ s.params.kbsrAddr) : s.memRead a = s.plainRead a := by
  simp [memRead, afterRead_plain s h]

/-- A write read back. -/
theorem plainRead_memWrite (h : s.mem.wf) (a b v : Word) :
    (s.memWrite a v).plainRead b = if b = a then v else s.plainRead b := by
  simp [plainRead, Memory.read_write h.1, BitVec.toNat_inj]

theorem memWrite_wf (h : s.mem.wf) (a v : Word) : (s.memWrite a v).mem.wf := Memory.write_wf h a.isLt v

theorem poll_wf (h : s.mem.wf) : s.poll.mem.wf := by
  cases hi : s.input with
  | nil => rw [poll_nil s hi]; exact memWrite_wf s h _ _
  | cons c rest => rw [poll_cons s hi]; exact memWrite_wf _ (memWrite_wf s h _ _) _ _

theorem afterRead_wf (h : s.mem.wf) (a : Word) : (s.afterRead a).mem.wf := by
  unfold afterRead
  split
  · exact poll_wf s h
  · exact h

theorem afterFetch_wf (h : s.mem.wf) : s.afterFetch.mem.wf := afterRead_wf s h _

/-- A poll changes only the two keyboard words. -/
theorem poll_plainRead_other (h : s.mem.wf) {b : Word} (h1 : b ≠ s.params.kbsrAddr) (h2 : b ≠ s.params.kbdrAddr) :
    s.poll.plainRead b = s.plainRead b := by
  cases hi : s.input with
  | nil => rw [poll_nil s hi, plainRead_memWrite s h]; simp [h1]
  | cons c rest =>
    rw [poll_cons s hi]
    show ((s.memWrite _ _).memWrite _ _).plainRead b = _
    rw [plainRead_memWrite _ (memWrite_wf s h _ _), plainRead_memWrite s h]
    simp [h1, h2]

/-- A bridged read changes no word but, at KBSR_ADDR, the two keyboard words. -/
theorem afterRead_plainRead_other (h : s.mem.wf) (a : Word) {b : Word} (h1 : b ≠ s.params.kbsrAddr)
    (h2 : b ≠ s.params.kbdrAddr) : (s.afterRead a).plainRead b = s.plainRead b := by
  unfold afterRead
  split
  · exact poll_plainRead_other s h h1 h2
  · rfl

/-- The word a bridged read of KBSR_ADDR returns (20_memory.md R66). -/
theorem memRead_kbsr (h : s.mem.wf) (hp : s.params.wf) :
    s.memRead s.params.kbsrAddr = if s.input = [] then 0x0000#16 else s.params.kbsrReady := by
  rw [memRead, afterRead_kbsr]
  cases hi : s.input with
  | nil => rw [poll_nil s hi, plainRead_memWrite s h]; simp
  | cons c rest =>
    rw [poll_cons s hi]
    show ((s.memWrite _ _).memWrite _ _).plainRead _ = _
    rw [plainRead_memWrite _ (memWrite_wf s h _ _), plainRead_memWrite s h]
    simp [hp.1]

/-- A bridged read depends on memory, the input queue and the parameters alone, and changes the first two and, by the
character it takes, what has been consumed. -/
theorem afterRead_congr {s t : State} (hm : t.mem = s.mem) (hi : t.input = s.input) (hp : t.params = s.params)
    (a : Word) : t.afterRead a = { t with
      mem := (s.afterRead a).mem
      input := (s.afterRead a).input
      consumed := t.consumed ++ if a = s.params.kbsrAddr then s.input.take 1 else [] } := by
  simp only [afterRead, hp]
  split
  · cases h : s.input with
    | nil => rw [poll_nil t (hi.trans h), poll_nil s h]; simp [memWrite, hm, hi, hp, h]
    | cons c rest => rw [poll_cons t (hi.trans h), poll_cons s h]; simp [memWrite, hostRead, hm, hp]
  · simp [← hm, ← hi, ← hp]

theorem memRead_congr {s t : State} (hm : t.mem = s.mem) (hi : t.input = s.input) (hp : t.params = s.params)
    (a : Word) : t.memRead a = s.memRead a := by
  simp [memRead, plainRead, afterRead_congr hm hi hp]

/-- A bridged read takes at most one character, from the front of the queue. -/
theorem afterRead_input (a : Word) :
    (s.afterRead a).input = if a = s.params.kbsrAddr then s.input.tail else s.input := by
  unfold afterRead
  split
  · exact poll_input s
  · rfl

theorem afterRead_consumed (a : Word) :
    (s.afterRead a).consumed = s.consumed ++ if a = s.params.kbsrAddr then s.input.take 1 else [] := by
  unfold afterRead
  split
  · exact poll_consumed s
  · simp

/-- A bridged read moves characters from the queue to those consumed, and loses none. -/
theorem afterRead_consumed_input (a : Word) :
    (s.afterRead a).consumed ++ (s.afterRead a).input = s.consumed ++ s.input := by
  rw [afterRead_consumed, afterRead_input]
  split <;> cases s.input <;> simp

end State

/-! ## The string scan (45_trap.md R226, R232, R234) -/

/-- The scan stops at the first zero word, having written the characters of the words before it. -/
theorem scanString_of_terminator (chars : Word → List Byte) (m : Memory) {a n : Nat} (hn : a + n < memWords)
    (hw : ∀ k < n, m.read (a + k) ≠ 0x0000#16) (hz : m.read (a + n) = 0x0000#16) :
    scanString chars m (memWords - a) = ((List.range n).flatMap (fun k => chars (m.read (a + k))), false) := by
  induction n generalizing a with
  | zero =>
    obtain ⟨l, hl⟩ : ∃ l, memWords - a = l + 1 := ⟨memWords - a - 1, by omega⟩
    have ha : memWords - (l + 1) = a := by omega
    have hz' : m.read a = 0x0000#16 := hz
    simp only [hl, scanString, ha, hz', if_true]
    rfl
  | succ n ih =>
    obtain ⟨l, hl⟩ : ∃ l, memWords - a = l + 1 := ⟨memWords - a - 1, by omega⟩
    have ha : memWords - (l + 1) = a := by omega
    have h0 : m.read a ≠ 0x0000#16 := by simpa using hw 0 (by omega)
    have e : ∀ k, a + 1 + k = a + (k + 1) := fun k => by omega
    have ih' := ih (a := a + 1) (by omega) (fun k hk => by rw [e]; exact hw (k + 1) (by omega)) (by rw [e]; exact hz)
    rw [show memWords - (a + 1) = l by omega] at ih'
    simp only [hl, scanString, ha, h0, if_false, ih', List.range_succ_eq_map, List.flatMap_cons, List.flatMap_map, e]
    simp

/-- The scan of words none of which is zero passes 0xFFFF, having written the characters of all of them. -/
theorem scanString_of_overrun (chars : Word → List Byte) (m : Memory) {a : Nat} (ha : a ≤ memWords)
    (hw : ∀ b, a ≤ b → b < memWords → m.read b ≠ 0x0000#16) :
    scanString chars m (memWords - a) =
      ((List.range (memWords - a)).flatMap (fun k => chars (m.read (a + k))), true) := by
  generalize hl : memWords - a = l
  induction l generalizing a with
  | zero => rfl
  | succ l ih =>
    have hb : memWords - (l + 1) = a := by omega
    have h0 : m.read a ≠ 0x0000#16 := hw a (Nat.le_refl a) (by omega)
    have ih' := ih (a := a + 1) (by omega) (fun b hb hb' => hw b (by omega) hb') (by omega)
    have e : ∀ k, a + 1 + k = a + (k + 1) := fun k => by omega
    simp only [scanString, hb, h0, if_false, ih', List.range_succ_eq_map, List.flatMap_cons, List.flatMap_map, e]
    simp

/-- What a scan can do: write characters, and then nothing or the overrun fault. -/
theorem trapScan_cases (chars : Word → List Byte) (ir : Word) (s : State) : ∃ cs,
    trapScan chars ir s = s.hostWrite cs ∨ trapScan chars ir s = (s.hostWrite cs).raiseFault .trapScanOverrun ir := by
  unfold trapScan
  refine ⟨(scanString chars s.mem (memWords - (s.reg 0).toNat)).1, ?_⟩
  by_cases h : (scanString chars s.mem (memWords - (s.reg 0).toNat)).2 <;> simp [h]

/-- Each trap word of 30_encoding.md R101 is TRAP at its vector with the ignored bits zero. -/
theorem exec_alias_eq_trap (s : State) :
    exec .getc s = exec (.trap 0#4 vecGETC) s ∧ exec .out s = exec (.trap 0#4 vecOUT) s ∧
    exec .puts s = exec (.trap 0#4 vecPUTS) s ∧ exec .inp s = exec (.trap 0#4 vecIN) s ∧
    exec .putsp s = exec (.trap 0#4 vecPUTSP) s ∧ exec .halt s = exec (.trap 0#4 vecHALT) s := by
  refine ⟨rfl, rfl, ?_, rfl, ?_, rfl⟩
  · show Host.Outcome.next (trapPuts (encode .puts) _) = Host.Outcome.next (trapPuts (encode (.trap 0#4 vecPUTS)) _)
    congr 2
  · show Host.Outcome.next (trapPutsp (encode .putsp) _) = Host.Outcome.next (trapPutsp (encode (.trap 0#4 vecPUTSP)) _)
    congr 2

/-! ## The step (40_cycle.md R121) -/

/-- A step that fetches is the decoded instruction on the state the fetch left. -/
theorem step_of_fetch {s : State} (h1 : s.status = .running) (h2 : s.stopRequest = false) (h3 : s.wait = .none) :
    step s = exec (decode s.fetchWord) s.afterFetch := by
  simp [step, h1, h2, h3]

/-- What a step can do when it answers a next state: take the stop request, complete the input wait, or run the
fetched instruction. -/
theorem step_cases {s t : State} (h : step s = .next t) : s.status = .running ∧
    ((s.stopRequest = true ∧ t = s.takeStop) ∨
     (s.stopRequest = false ∧ s.wait ≠ .none ∧ ∃ c rest, s.input = c :: rest ∧ t = s.inputArrived c rest) ∨
     (s.stopRequest = false ∧ s.wait = .none ∧ exec (decode s.fetchWord) s.afterFetch = .next t)) := by
  unfold step at h
  cases hs : s.status with
  | running =>
    simp only [hs] at h
    cases hq : s.stopRequest with
    | true => simp only [hq, if_true, Host.Outcome.next.injEq] at h; exact ⟨rfl, .inl ⟨rfl, h.symm⟩⟩
    | false =>
      have wait_case : completeInputWait s = .next t → ∃ c rest, s.input = c :: rest ∧ t = s.inputArrived c rest := by
        intro h
        unfold completeInputWait at h
        cases hi : s.input with
        | nil => simp [hi] at h
        | cons c rest => simp only [hi, Host.Outcome.next.injEq] at h; exact ⟨c, rest, rfl, h.symm⟩
      cases hw : s.wait with
      | none => simp [hq, hw] at h; exact ⟨rfl, .inr (.inr ⟨rfl, rfl, h⟩)⟩
      | getcWait => simp [hq, hw] at h; exact ⟨rfl, .inr (.inl ⟨rfl, by simp, wait_case h⟩)⟩
      | inWait => simp [hq, hw] at h; exact ⟨rfl, .inr (.inl ⟨rfl, by simp, wait_case h⟩)⟩
  | halted => simp [hs] at h
  | faulted f => simp [hs] at h
  | interrupted => simp [hs] at h

end Sys2Proof.Machine
end

