-- ==== Sys2Proof/Laws/Exec.lean ====
section
/-! SUPPORT. What an instruction can do, once: the trap dispatcher, and every other instruction by its shape. -/

namespace Sys2Proof.Machine

/-- An opcode-0xF instruction is the trap dispatcher at its vector, with its own word as the instruction word. -/
theorem exec_of_isTrapAt {i : Instr} {v : BitVec 8} (h : i.isTrapAt v) (s : State) :
    exec i s = .next (trapDispatch (encode i) v s) ∧ i.isTrap = true := by
  rcases h with ⟨ign, rfl⟩ | ⟨rfl, rfl⟩ | ⟨rfl, rfl⟩ | ⟨rfl, rfl⟩ | ⟨rfl, rfl⟩ | ⟨rfl, rfl⟩ | ⟨rfl, rfl⟩ <;>
    exact ⟨rfl, rfl⟩

/-- Every opcode-0xF instruction has a vector. -/
theorem isTrapAt_of_isTrap {i : Instr} (h : i.isTrap = true) : ∃ v, i.isTrapAt v := by
  cases i <;> simp [Instr.isTrap] at h <;> simp [Instr.isTrapAt]

/-- What the trap dispatcher can do (45_trap.md R220 to R238). -/
theorem trapDispatch_cases (ir : Word) (v : BitVec 8) (s : State) :
    (v = 0x20#8 ∧ trapDispatch ir v s = { s.trapLink with wait := .getcWait }) ∨
    (v = 0x23#8 ∧
      trapDispatch ir v s = { s.trapLink with output := s.output ++ s.params.inPrompt, wait := .inWait }) ∨
    (v = 0x25#8 ∧
      trapDispatch ir v s = { s.trapLink with output := s.output ++ s.params.haltNotice, status := .halted }) ∨
    ((v = 0x22#8 ∨ v = 0x24#8) ∧ ∃ cs, trapDispatch ir v s =
      { s.trapLink with
        output := s.output ++ cs
        status := .faulted { kind := .trapScanOverrun, address := s.pc - 1, word := ir } }) ∨
    (v ≠ 0x20#8 ∧ v ≠ 0x23#8 ∧ v ≠ 0x25#8 ∧
      ∃ cs, trapDispatch ir v s = { s.trapLink with output := s.output ++ cs }) := by
  by_cases h1 : v = 0x20#8
  · subst h1; exact .inl ⟨rfl, rfl⟩
  by_cases h2 : v = 0x21#8
  · subst h2
    refine .inr (.inr (.inr (.inr ⟨by decide, by decide, by decide, [lowByte (s.trapLink.reg 0)], ?_⟩)))
    show trapOut s.trapLink = _
    simp only [trapOut, State.hostWrite, State.trapLink_output]
  by_cases h3 : v = 0x22#8
  · subst h3
    obtain ⟨cs, h | h⟩ := trapScan_cases putsChars ir s.trapLink
    · refine .inr (.inr (.inr (.inr ⟨by decide, by decide, by decide, cs, ?_⟩)))
      show trapScan putsChars ir s.trapLink = _
      rw [h]; simp only [State.hostWrite, State.trapLink_output]
    · refine .inr (.inr (.inr (.inl ⟨.inl rfl, cs, ?_⟩)))
      show trapScan putsChars ir s.trapLink = _
      rw [h]; simp only [State.raiseFault, State.hostWrite, State.trapLink_output, State.trapLink_pc]
  by_cases h4 : v = 0x23#8
  · subst h4
    refine .inr (.inl ⟨rfl, ?_⟩)
    show trapIn s.trapLink = _
    simp only [trapIn, State.hostWrite, State.trapLink_output, State.trapLink_params]
  by_cases h5 : v = 0x24#8
  · subst h5
    obtain ⟨cs, h | h⟩ := trapScan_cases putspChars ir s.trapLink
    · refine .inr (.inr (.inr (.inr ⟨by decide, by decide, by decide, cs, ?_⟩)))
      show trapScan putspChars ir s.trapLink = _
      rw [h]; simp only [State.hostWrite, State.trapLink_output]
    · refine .inr (.inr (.inr (.inl ⟨.inr rfl, cs, ?_⟩)))
      show trapScan putspChars ir s.trapLink = _
      rw [h]; simp only [State.raiseFault, State.hostWrite, State.trapLink_output, State.trapLink_pc]
  by_cases h6 : v = 0x25#8
  · subst h6
    refine .inr (.inr (.inl ⟨rfl, ?_⟩))
    show trapHalt s.trapLink = _
    simp only [trapHalt, State.hostWrite, State.trapLink_output, State.trapLink_params]
  refine .inr (.inr (.inr (.inr ⟨h1, h4, h6, [], ?_⟩)))
  simp only [trapDispatch, vecGETC, vecOUT, vecPUTS, vecIN, vecPUTSP, vecHALT, h1, h2, h3, h4, h5, h6, if_false,
    List.append_nil]
  rw [← State.trapLink_output]

/-- What an instruction that is no TRAP can do: write a result, load, load indirect, jump, call, store, store
indirect, or fault. With each shape, the instruction's frame data. -/
inductive ExecShape (i : Instr) (s : State) : Prop where
  | result (dr : RegIdx) (v : Word) (flag : i.flagDest = some dr) (store : i.storeAddr s = none)
      (reads : i.bridgedReads s = []) (pc : i.writesPc = false) (gpr : i.gprWrites s.params = [dr])
      (run : exec i s = .next (s.setResult dr v))
  | load (dr : RegIdx) (ea : Word) (flag : i.flagDest = some dr) (store : i.storeAddr s = none)
      (reads : i.bridgedReads s = [ea]) (pc : i.writesPc = false) (gpr : i.gprWrites s.params = [dr])
      (run : exec i s = .next (s.loadFrom dr ea))
  | loadIndirect (dr : RegIdx) (off9 : BitVec 9) (eq : i = .ldi dr off9)
      (run : exec i s = .next ((s.afterRead (s.pcRel off9)).loadFrom dr (s.indirect off9)))
  | jump (target : Word) (flag : i.flagDest = none) (store : i.storeAddr s = none) (reads : i.bridgedReads s = [])
      (pc : i.writesPc = true) (run : exec i s = .next (s.setPc target))
  | call (target : Word) (flag : i.flagDest = none) (store : i.storeAddr s = none) (reads : i.bridgedReads s = [])
      (pc : i.writesPc = true) (gpr : i.gprWrites s.params = [7])
      (run : exec i s = .next ((s.setReg 7 s.pc).setPc target))
  | store (ea v : Word) (flag : i.flagDest = none) (store : i.storeAddr s = some ea) (reads : i.bridgedReads s = [])
      (pc : i.writesPc = false) (run : exec i s = .next (s.memWrite ea v))
  | storeIndirect (sr : RegIdx) (off9 : BitVec 9) (eq : i = .sti sr off9)
      (run : exec i s = .next ((s.afterRead (s.pcRel off9)).memWrite (s.indirect off9) (s.reg sr)))
  | res (ign : BitVec 12) (eq : i = .res ign) (run : exec i s = .next (s.raiseFault .reservedOpcode (encode i)))
  | rti (ign : BitVec 12) (eq : i = .rti ign) (run : exec i s = .next (s.raiseFault .unimplementedRTI (encode i)))

/-- Every instruction is a TRAP at some vector or has one of the shapes. -/
theorem exec_shape (i : Instr) (s : State) : (∃ v, i.isTrapAt v) ∨ (i.isTrap = false ∧ ExecShape i s) := by
  cases i with
  | trap | getc | out | puts | inp | putsp | halt => exact .inl (isTrapAt_of_isTrap rfl)
  | addReg | addImm | andReg | andImm | not | lea => exact .inr ⟨rfl, .result _ _ rfl rfl rfl rfl rfl rfl⟩
  | ld | ldr => exact .inr ⟨rfl, .load _ _ rfl rfl rfl rfl rfl rfl⟩
  | ldi dr off9 => exact .inr ⟨rfl, .loadIndirect dr off9 rfl rfl⟩
  | br nzp off9 =>
    by_cases h : s.branchTaken nzp = true
    · exact .inr ⟨rfl, .jump (s.pcRel off9) rfl rfl rfl rfl (by simp only [exec, execBr, h, if_true])⟩
    · exact .inr ⟨rfl, .jump s.pc rfl rfl rfl rfl (by simp only [exec, execBr, h]; rfl)⟩
  | jmp | ret => exact .inr ⟨rfl, .jump _ rfl rfl rfl rfl rfl⟩
  | jsr | jsrr => exact .inr ⟨rfl, .call _ rfl rfl rfl rfl rfl rfl⟩
  | st | str => exact .inr ⟨rfl, .store _ _ rfl rfl rfl rfl rfl⟩
  | sti sr off9 => exact .inr ⟨rfl, .storeIndirect sr off9 rfl rfl⟩
  | res ign => exact .inr ⟨rfl, .res ign rfl rfl⟩
  | rti ign => exact .inr ⟨rfl, .rti ign rfl rfl⟩

/-- The trap dispatcher takes no input: GETC and IN take theirs when their wait completes (40_cycle.md R125). -/
theorem trapDispatch_input (ir : Word) (v : BitVec 8) (s : State) :
    (trapDispatch ir v s).input = s.input ∧ (trapDispatch ir v s).consumed = s.consumed := by
  rcases trapDispatch_cases ir v s with ⟨-, e⟩ | ⟨-, e⟩ | ⟨-, e⟩ | ⟨-, cs, e⟩ | ⟨-, -, -, cs, e⟩ <;> rw [e] <;> simp

/-- An instruction that takes input adds what it takes to what has been consumed (40_cycle.md R127). -/
theorem exec_consumed_input {i : Instr} {s t : State} (h : exec i s = .next t) :
    t.consumed ++ t.input = s.consumed ++ s.input := by
  rcases exec_shape i s with ⟨v, hv⟩ | ⟨-, hs⟩
  · obtain rfl := Host.Outcome.next.inj ((exec_of_isTrapAt hv s).1.symm.trans h)
    simp [trapDispatch_input]
  · cases hs with
    | load _ ea _ _ _ _ _ run =>
      obtain rfl := Host.Outcome.next.inj (run.symm.trans h)
      exact s.afterRead_consumed_input ea
    | loadIndirect _ off9 _ run =>
      obtain rfl := Host.Outcome.next.inj (run.symm.trans h)
      exact (State.afterRead_consumed_input _ _).trans (s.afterRead_consumed_input _)
    | storeIndirect _ _ _ run =>
      obtain rfl := Host.Outcome.next.inj (run.symm.trans h)
      exact s.afterRead_consumed_input _
    | result _ _ _ _ _ _ _ run | jump _ _ _ _ _ run | call _ _ _ _ _ _ run | store _ _ _ _ _ _ run | res _ _ run
    | rti _ _ run =>
      obtain rfl := Host.Outcome.next.inj (run.symm.trans h)
      rfl

end Sys2Proof.Machine
end

