-- ==== Sys2Proof/Laws/PerInstr.lean ====
section
/-! SUPPORT. The family TableRow: every constructor's encoding carries the fixed bits of its row of
spec/opcode_table.json. The (match, mask) pairs are written out from the table. -/

namespace Sys2Proof.Laws.TableRow

/-- The row's "match" and "mask" in spec/opcode_table.json. -/
def row : Instr → Word × Word
  | .addReg .. => (0x1000#16, 0xF020#16)
  | .addImm .. => (0x1020#16, 0xF020#16)
  | .andReg .. => (0x5000#16, 0xF020#16)
  | .andImm .. => (0x5020#16, 0xF020#16)
  | .not .. => (0x9000#16, 0xF000#16)
  | .br .. => (0x0000#16, 0xF000#16)
  | .jmp .. => (0xC000#16, 0xF000#16)
  | .jsr .. => (0x4800#16, 0xF800#16)
  | .jsrr .. => (0x4000#16, 0xF800#16)
  | .ld .. => (0x2000#16, 0xF000#16)
  | .ldi .. => (0xA000#16, 0xF000#16)
  | .ldr .. => (0x6000#16, 0xF000#16)
  | .lea .. => (0xE000#16, 0xF000#16)
  | .st .. => (0x3000#16, 0xF000#16)
  | .sti .. => (0xB000#16, 0xF000#16)
  | .str .. => (0x7000#16, 0xF000#16)
  | .trap .. => (0xF000#16, 0xF000#16)
  | .rti .. => (0x8000#16, 0xF000#16)
  | .res .. => (0xD000#16, 0xF000#16)
  | .ret .. => (0xC1C0#16, 0xF1C0#16)
  | .getc => (0xF020#16, 0xFFFF#16)
  | .out => (0xF021#16, 0xFFFF#16)
  | .puts => (0xF022#16, 0xFFFF#16)
  | .inp => (0xF023#16, 0xFFFF#16)
  | .putsp => (0xF024#16, 0xFFFF#16)
  | .halt => (0xF025#16, 0xFFFF#16)

/-- The instruction's word has its row's fixed bits. -/
def Statement (i : Instr) : Prop := encode i &&& (row i).2 = (row i).1

/-- The masked bits of a word, as bits of the opcode and of the rest. -/
theorem and_place_of_disjoint {n lo : Nat} (v : BitVec n) (mask : Word)
    (h : ∀ i, lo ≤ i → i < lo + n → mask.getLsbD i = false) : place v lo &&& mask = 0#16 := by
  ext i hi
  have h1 := getLsbD_place v lo i
  simp only [BitVec.getLsbD_eq_getElem hi] at h1
  simp only [BitVec.getElem_and, h1, BitVec.getElem_zero]
  by_cases hlo : lo ≤ i
  · by_cases hn : i < lo + n
    · have := h i hlo hn
      rw [BitVec.getLsbD_eq_getElem hi] at this
      simp [this]
    · rw [BitVec.getLsbD_of_ge v _ (by omega)]
      simp
  · simp [hlo]

/-- A placed register field under a mask that does not reach it. -/
theorem and_placeReg_of_disjoint (r : RegIdx) {lo : Nat} (mask : Word)
    (h : ∀ i, lo ≤ i → i < lo + 3 → mask.getLsbD i = false) : placeReg r lo &&& mask = 0#16 :=
  and_place_of_disjoint _ mask h

/-- A mask distributes over the fields of a word. -/
theorem or_and (a b mask : Word) : (a ||| b) &&& mask = a &&& mask ||| b &&& mask := by
  ext i hi
  simp [Bool.and_or_distrib_right]

theorem addReg (dr : RegIdx) (sr1 : RegIdx) (ign : BitVec 2) (sr2 : RegIdx) : Statement (.addReg dr sr1 ign sr2) := by
  simp (disch := decide) only [Statement, encode, row, or_and, and_place_of_disjoint, and_placeReg_of_disjoint]
  decide
theorem addImm (dr : RegIdx) (sr1 : RegIdx) (imm5 : BitVec 5) : Statement (.addImm dr sr1 imm5) := by
  simp (disch := decide) only [Statement, encode, row, or_and, and_place_of_disjoint, and_placeReg_of_disjoint]
  decide
theorem andReg (dr : RegIdx) (sr1 : RegIdx) (ign : BitVec 2) (sr2 : RegIdx) : Statement (.andReg dr sr1 ign sr2) := by
  simp (disch := decide) only [Statement, encode, row, or_and, and_place_of_disjoint, and_placeReg_of_disjoint]
  decide
theorem andImm (dr : RegIdx) (sr1 : RegIdx) (imm5 : BitVec 5) : Statement (.andImm dr sr1 imm5) := by
  simp (disch := decide) only [Statement, encode, row, or_and, and_place_of_disjoint, and_placeReg_of_disjoint]
  decide
theorem not (dr : RegIdx) (sr : RegIdx) (ign : BitVec 6) : Statement (.not dr sr ign) := by
  simp (disch := decide) only [Statement, encode, row, or_and, and_place_of_disjoint, and_placeReg_of_disjoint]
  decide
theorem br (nzp : BitVec 3) (off9 : BitVec 9) : Statement (.br nzp off9) := by
  simp (disch := decide) only [Statement, encode, row, or_and, and_place_of_disjoint]
  decide
theorem jmp (ignHi : BitVec 3) (base : RegIdx) (ignLo : BitVec 6) : Statement (.jmp ignHi base ignLo) := by
  simp (disch := decide) only [Statement, encode, row, or_and, and_place_of_disjoint, and_placeReg_of_disjoint]
  decide
theorem jsr (off11 : BitVec 11) : Statement (.jsr off11) := by
  simp (disch := decide) only [Statement, encode, row, or_and, and_place_of_disjoint]
  decide
theorem jsrr (ignHi : BitVec 2) (base : RegIdx) (ignLo : BitVec 6) : Statement (.jsrr ignHi base ignLo) := by
  simp (disch := decide) only [Statement, encode, row, or_and, and_place_of_disjoint, and_placeReg_of_disjoint]
  decide
theorem ld (dr : RegIdx) (off9 : BitVec 9) : Statement (.ld dr off9) := by
  simp (disch := decide) only [Statement, encode, row, or_and, and_place_of_disjoint, and_placeReg_of_disjoint]
  decide
theorem ldi (dr : RegIdx) (off9 : BitVec 9) : Statement (.ldi dr off9) := by
  simp (disch := decide) only [Statement, encode, row, or_and, and_place_of_disjoint, and_placeReg_of_disjoint]
  decide
theorem ldr (dr : RegIdx) (base : RegIdx) (off6 : BitVec 6) : Statement (.ldr dr base off6) := by
  simp (disch := decide) only [Statement, encode, row, or_and, and_place_of_disjoint, and_placeReg_of_disjoint]
  decide
theorem lea (dr : RegIdx) (off9 : BitVec 9) : Statement (.lea dr off9) := by
  simp (disch := decide) only [Statement, encode, row, or_and, and_place_of_disjoint, and_placeReg_of_disjoint]
  decide
theorem st (sr : RegIdx) (off9 : BitVec 9) : Statement (.st sr off9) := by
  simp (disch := decide) only [Statement, encode, row, or_and, and_place_of_disjoint, and_placeReg_of_disjoint]
  decide
theorem sti (sr : RegIdx) (off9 : BitVec 9) : Statement (.sti sr off9) := by
  simp (disch := decide) only [Statement, encode, row, or_and, and_place_of_disjoint, and_placeReg_of_disjoint]
  decide
theorem str (sr : RegIdx) (base : RegIdx) (off6 : BitVec 6) : Statement (.str sr base off6) := by
  simp (disch := decide) only [Statement, encode, row, or_and, and_place_of_disjoint, and_placeReg_of_disjoint]
  decide
theorem trap (ign : BitVec 4) (vect : BitVec 8) : Statement (.trap ign vect) := by
  simp (disch := decide) only [Statement, encode, row, or_and, and_place_of_disjoint]
  decide
theorem rti (ign : BitVec 12) : Statement (.rti ign) := by
  simp (disch := decide) only [Statement, encode, row, or_and, and_place_of_disjoint]
  decide
theorem res (ign : BitVec 12) : Statement (.res ign) := by
  simp (disch := decide) only [Statement, encode, row, or_and, and_place_of_disjoint]
  decide
theorem ret (ignHi : BitVec 3) (ignLo : BitVec 6) : Statement (.ret ignHi ignLo) := by
  simp (disch := decide) only [Statement, encode, row, or_and, and_place_of_disjoint]
  decide
theorem getc : Statement .getc := by unfold Statement; decide
theorem out : Statement .out := by unfold Statement; decide
theorem puts : Statement .puts := by unfold Statement; decide
theorem inp : Statement .inp := by unfold Statement; decide
theorem putsp : Statement .putsp := by unfold Statement; decide
theorem halt : Statement .halt := by unfold Statement; decide

end Sys2Proof.Laws.TableRow
end

