-- ==== Sys2Proof/Tests/Slice0.lean ====
section
/-! SUPPORT. Small tests. An expected value is a worked example or a vector of spec/95_test_vectors.md or is computed by
hand from the rule the test names; a word is written out from the formats of 30_encoding.md R94. The last part shows
for each obligation that has hypotheses concrete values that meet them. -/

namespace Sys2Proof.Tests

open Sys2Proof Sys2Proof.Machine

/-! ## Helpers -/

/-- One step, seen through `view`; none where there is no step. -/
def after {α : Type} (view : State → α) (s : State) : Option α :=
  match step s with
  | .next t => some (view t)
  | .fault _ => none
  | .refused _ => none

/-- A machine after reset with the word `w` at `pc`, given registers and given other memory words. -/
def machine (pc w : Word) (regs : List (RegIdx × Word) := []) (mem : List (Word × Word) := []) : State :=
  let m := mem.foldl (fun s c => s.memWrite c.1 c.2) (State.reset.memWrite pc w)
  (regs.foldl (fun s r => s.setReg r.1 r.2) m).setPc pc

/-! ## WellFormed: what the check refuses, and what it lets through -/

theorem test_wf_refuses_jmp_of_r7 : (Instr.jmp 0b000#3 7 0b000000#6).wf = false := by decide
theorem test_wf_refuses_trap_written_for_getc : (Instr.trap 0b0000#4 0x20#8).wf = false := by decide
theorem test_wf_refuses_trap_written_for_halt : (Instr.trap 0b0000#4 0x25#8).wf = false := by decide
theorem test_wf_accepts_neighbours : (Instr.jmp 0b000#3 6 0b000000#6).wf = true ∧
    (Instr.trap 0b0000#4 0x26#8).wf = true ∧ (Instr.trap 0b0000#4 0x1F#8).wf = true ∧
    (Instr.trap 0b0001#4 0x25#8).wf = true ∧ (Instr.ret 0b000#3 0b000000#6).wf = true := by decide

/-! ## Decode: every constructor from a word written out bit by bit (30_encoding.md R91, R94, R101) -/

theorem test_decode_addReg : decode 0b0001_001_010_0_11_011#16 = .addReg 1 2 0b11#2 3 := by decide
theorem test_decode_addImm : decode 0b0001_011_011_1_10000#16 = .addImm 3 3 0b10000#5 := by decide
theorem test_decode_andReg : decode 0b0101_010_011_0_00_100#16 = .andReg 2 3 0b00#2 4 := by decide
theorem test_decode_andImm : decode 0b0101_000_000_1_00000#16 = .andImm 0 0 0b00000#5 := by decide
theorem test_decode_not : decode 0b1001_000_001_111111#16 = .not 0 1 0b111111#6 := by decide
theorem test_decode_br : decode 0b0000_100_100000000#16 = .br 0b100#3 0b100000000#9 := by decide
theorem test_decode_jmp : decode 0b1100_111_010_111111#16 = .jmp 0b111#3 2 0b111111#6 := by decide
theorem test_decode_ret : decode 0b1100_000_111_000000#16 = .ret 0b000#3 0b000000#6 := by decide
theorem test_decode_jsr : decode 0b0100_1_10000000000#16 = .jsr 0b10000000000#11 := by decide
theorem test_decode_jsrr : decode 0b0100_0_01_011_000001#16 = .jsrr 0b01#2 3 0b000001#6 := by decide
theorem test_decode_ld : decode 0b0010_001_000000010#16 = .ld 1 0b000000010#9 := by decide
theorem test_decode_ldi : decode 0b1010_010_111111101#16 = .ldi 2 0b111111101#9 := by decide
theorem test_decode_ldr : decode 0b0110_011_100_100000#16 = .ldr 3 4 0b100000#6 := by decide
theorem test_decode_lea : decode 0b1110_100_011111111#16 = .lea 4 0b011111111#9 := by decide
theorem test_decode_st : decode 0b0011_001_000000001#16 = .st 1 0b000000001#9 := by decide
theorem test_decode_sti : decode 0b1011_010_000000000#16 = .sti 2 0b000000000#9 := by decide
theorem test_decode_str : decode 0b0111_011_100_000101#16 = .str 3 4 0b000101#6 := by decide
theorem test_decode_trap : decode 0b1111_1111_00100101#16 = .trap 0b1111#4 0x25#8 := by decide
theorem test_decode_rti : decode 0b1000_000000000000#16 = .rti 0b000000000000#12 := by decide
theorem test_decode_res : decode 0b1101_111111111111#16 = .res 0b111111111111#12 := by decide
theorem test_decode_services : decode 0b1111_0000_00100000#16 = .getc ∧ decode 0b1111_0000_00100001#16 = .out ∧
    decode 0b1111_0000_00100010#16 = .puts ∧ decode 0b1111_0000_00100011#16 = .inp ∧
    decode 0b1111_0000_00100100#16 = .putsp ∧ decode 0b1111_0000_00100101#16 = .halt := by decide

theorem test_decode_rejects_no_word : (decodeWords []).isOk = false ∧ decodeTableWord 17 0x1283 = none ∧
    decodeTableWord 16 0x1283 = some (.addReg 1 2 0b00#2 3) := by decide

/-! ## Primitives (95_test_vectors.md section 2) -/

theorem test_sext : sext 0x10#5 = 0xFFF0#16 ∧ sext 0x1F#6 = 0x001F#16 ∧ sext 0x100#9 = 0xFF00#16 ∧
    sext 0x400#11 = 0xFC00#16 ∧ sext 0x1#1 = 0xFFFF#16 ∧ sext 0x8000#16 = 0x8000#16 := by decide
theorem test_setcc : condOf 0x0000#16 = 0b010#3 ∧ condOf 0x0001#16 = 0b001#3 ∧ condOf 0x7FFF#16 = 0b001#3 ∧
    condOf 0x8000#16 = 0b100#3 ∧ condOf 0xFFFF#16 = 0b100#3 := by decide

/-- The codes of 60_exceptions.md R271. -/
theorem test_fault_codes : FaultKind.reservedOpcode.code = 1 ∧ FaultKind.unimplementedRTI.code = 2 ∧
    FaultKind.trapScanOverrun.code = 3 := by decide

/-! ## Operate (95_test_vectors.md section 3) -/

theorem test_addReg_sets_n :
    after (fun t => (t.reg 1, t.cond, t.pc)) (machine 0x3000#16 0x1283#16 [(2, 0x7FFF#16), (3, 0x0001#16)]) =
      some (0x8000#16, 0b100#3, 0x3001#16) := by decide
theorem test_addReg_ignored_bits :
    after (fun t => (t.reg 1, t.cond)) (machine 0x3000#16 0x129B#16 [(2, 0x0005#16), (3, 0x0006#16)]) =
      some (0x000B#16, 0b001#3) := by decide
theorem test_addImm_negative :
    after (fun t => (t.reg 3, t.cond)) (machine 0x3000#16 0x16F0#16 [(3, 0x0010#16)]) =
      some (0x0000#16, 0b010#3) := by decide
theorem test_andReg :
    after (fun t => (t.reg 2, t.cond)) (machine 0x3000#16 0x54C4#16 [(3, 0xF0F0#16), (4, 0x0FF0#16)]) =
      some (0x00F0#16, 0b001#3) := by decide
theorem test_andImm_sign_extends :
    after (fun t => (t.reg 5, t.cond)) (machine 0x3000#16 0x5B70#16 [(5, 0x00FF#16)]) =
      some (0x00F0#16, 0b001#3) := by decide
theorem test_andImm_source_example :
    after (fun t => (t.reg 0, t.cond, t.pc)) (machine 0x3000#16 0x5020#16 [(0, 0xBEEF#16)]) =
      some (0x0000#16, 0b010#3, 0x3001#16) := by decide
theorem test_not :
    after (fun t => (t.reg 0, t.cond)) (machine 0x3000#16 0x907F#16 [(1, 0x00FF#16)]) =
      some (0xFF00#16, 0b100#3) := by decide
theorem test_not_in_place :
    after (fun t => (t.reg 2, t.cond)) (machine 0x3000#16 0x94BF#16 [(2, 0x8000#16)]) =
      some (0x7FFF#16, 0b001#3) := by decide

/-! ## Control (95_test_vectors.md section 4) -/

theorem test_br_taken :
    after State.pc ((machine 0x3000#16 0x0405#16).setCond 0b010#3) = some 0x3006#16 ∧
    after State.pc ((machine 0x3000#16 0x0405#16).setCond 0b001#3) = some 0x3001#16 := by decide
theorem test_br_wraps :
    after State.pc ((machine 0xFFFF#16 0x0E01#16).setCond 0b010#3) = some 0x0001#16 ∧
    after State.pc (machine 0x3000#16 0x0FFF#16) = some 0x3001#16 := by decide
theorem test_jmp_ignored_bits :
    after State.pc (machine 0x3000#16 0xCEBF#16 [(2, 0x1234#16)]) = some 0x1234#16 := by decide
theorem test_ret : after State.pc (machine 0x3000#16 0xC1C0#16 [(7, 0x3100#16)]) = some 0x3100#16 := by decide
theorem test_jsr_backwards :
    after (fun t => (t.reg 7, t.pc)) (machine 0x3000#16 0x4C00#16) = some (0x3001#16, 0x2C01#16) := by decide
theorem test_jsrr_link_first :
    after (fun t => (t.reg 7, t.pc)) (machine 0x3000#16 0x41C0#16 [(7, 0x5000#16)]) =
      some (0x3001#16, 0x3001#16) := by decide
theorem test_jsrr_base_first :
    after (fun t => (t.reg 7, t.pc))
      { machine 0x3000#16 0x41C0#16 [(7, 0x5000#16)] with params := { defaultParams with jsrrLinkFirst := false } } =
      some (0x3001#16, 0x5000#16) := by decide

/-! ## Loads and stores (95_test_vectors.md sections 5 and 6) -/

theorem test_ld_wraps :
    after (fun t => (t.reg 1, t.cond, t.pc)) (machine 0xFFFF#16 0x2201#16 [] [(0x0001#16, 0x0007#16)]) =
      some (0x0007#16, 0b001#3, 0x0000#16) := by decide
theorem test_ldi :
    after (fun t => (t.reg 2, t.cond))
      (machine 0x3010#16 0xA5FD#16 [] [(0x300E#16, 0x4000#16), (0x4000#16, 0xFFFE#16)]) =
      some (0xFFFE#16, 0b100#3) := by decide
theorem test_ldi_polls_keyboard :
    after (fun t => (t.reg 0, t.cond, t.plainRead 0xFE00#16, t.plainRead 0xFE02#16, t.consumed))
      { machine 0x3000#16 0xA000#16 [] [(0x3001#16, 0xFE00#16)] with input := [0x78#8] } =
      some (0x8000#16, 0b100#3, 0x8000#16, 0x0078#16, [0x78#8]) := by decide
theorem test_ldr_negative_offset :
    after (fun t => (t.reg 3, t.cond)) (machine 0x3000#16 0x6720#16 [(4, 0x4020#16), (3, 0x0001#16)]) =
      some (0x0000#16, 0b010#3) := by decide
theorem test_ldr_base_is_destination :
    after (fun t => (t.reg 1, t.cond)) (machine 0x3000#16 0x6240#16 [(1, 0x4000#16)] [(0x4000#16, 0x7777#16)]) =
      some (0x7777#16, 0b001#3) := by decide
theorem test_lea :
    after (fun t => (t.reg 0, t.cond)) (machine 0x0000#16 0xE100#16) = some (0xFF01#16, 0b100#3) := by decide
theorem test_st :
    after (fun t => (t.plainRead 0x3002#16, t.cond)) ((machine 0x3000#16 0x3201#16 [(1, 0xBEEF#16)]).setCond 0b010#3) =
      some (0xBEEF#16, 0b010#3) := by decide
theorem test_sti :
    after (fun t => t.plainRead 0x4000#16) (machine 0x3000#16 0xB400#16 [(2, 0x0042#16)] [(0x3001#16, 0x4000#16)]) =
      some 0x0042#16 := by decide
theorem test_str_wraps :
    after (fun t => t.plainRead 0xFFFF#16) (machine 0x3000#16 0x773F#16 [(3, 0x0009#16), (4, 0x0000#16)]) =
      some 0x0009#16 := by decide

/-! ## TRAP (95_test_vectors.md section 7) -/

theorem test_getc_begins_wait :
    after (fun t => (t.wait, t.pc, t.reg 0)) (machine 0x3000#16 0xF020#16) =
      some (Wait.getcWait, 0x3001#16, 0x0000#16) := by decide
theorem test_getc_completes :
    after (fun t => (t.reg 0, t.wait, t.output, t.cond, t.consumed))
      { machine 0x3000#16 0x0000#16 [(0, 0xFFFF#16)] with input := [0x6B#8], wait := .getcWait } =
      some (0x006B#16, Wait.none, [], 0b000#3, [0x6B#8]) := by decide
theorem test_out_low_byte :
    after State.output (machine 0x3000#16 0xF021#16 [(0, 0xFF0A#16)]) = some [0x0A#8] := by decide
theorem test_puts :
    after (fun t => (t.output, t.reg 0))
      (machine 0x3000#16 0xF022#16 [(0, 0x4000#16)] [(0x4000#16, 0x4148#16), (0x4001#16, 0x0069#16)]) =
      some ([0x48#8, 0x69#8], 0x4000#16) := by decide
theorem test_puts_overrun :
    after (fun t => (t.output, t.status)) (machine 0x3000#16 0xF022#16 [(0, 0xFFFF#16)] [(0xFFFF#16, 0x0041#16)]) =
      some ([0x41#8], .faulted { kind := .trapScanOverrun, address := 0x3000#16, word := 0xF022#16 }) := by decide
theorem test_in_prompts :
    after (fun t => (t.output, t.wait)) (machine 0x3000#16 0xF023#16) =
      some ("Enter a character: ".toList.map (fun c => BitVec.ofNat 8 c.toNat), Wait.inWait) := by decide
theorem test_in_echoes :
    after (fun t => (t.output, t.reg 0)) { machine 0x3000#16 0x0000#16 with input := [0x79#8], wait := .inWait } =
      some ([0x79#8], 0x0079#16) := by decide
theorem test_putsp :
    after State.output
      (machine 0x3000#16 0xF024#16 [(0, 0x4000#16)] [(0x4000#16, 0x6548#16), (0x4001#16, 0x006C#16)]) =
      some [0x48#8, 0x65#8, 0x6C#8] := by decide
theorem test_putsp_zero_low_byte :
    after State.output (machine 0x3000#16 0xF024#16 [(0, 0x4000#16)] [(0x4000#16, 0x4100#16)]) =
      some [0x00#8, 0x41#8] := by decide
theorem test_halt :
    after (fun t => (t.output, t.status, t.pc)) (machine 0x3004#16 0xF025#16) =
      some ([0x48#8, 0x41#8, 0x4C#8, 0x54#8, 0x0A#8], Status.halted, 0x3005#16) := by decide
theorem test_trap_ignored_bits : after State.status (machine 0x3000#16 0xFF25#16) = some Status.halted := by decide
theorem test_trap_unrecognised_links :
    after (fun t => (t.reg 7, t.pc, t.output, t.status))
      { machine 0x3000#16 0xF026#16 with params := { defaultParams with trapLinksR7 := true } } =
      some (0x3001#16, 0x3001#16, [], Status.running) := by decide

/-! ## RES, RTI, the bridge and the stop request (95_test_vectors.md sections 8 and 9) -/

theorem test_res :
    after (fun t => (t.status, t.pc)) (machine 0x3000#16 0xDFFF#16) =
      some (.faulted { kind := .reservedOpcode, address := 0x3000#16, word := 0xDFFF#16 }, 0x3001#16) := by decide
theorem test_rti :
    after (fun t => (t.status, t.pc)) (machine 0x3000#16 0x8000#16) =
      some (.faulted { kind := .unimplementedRTI, address := 0x3000#16, word := 0x8000#16 }, 0x3001#16) := by decide
theorem test_fetch_from_kbsr :
    after (fun t => (t.status, t.plainRead 0xFE00#16, t.plainRead 0xFE02#16))
      { machine 0xFE00#16 0x1234#16 with input := [0x78#8] } =
      some (.faulted { kind := .unimplementedRTI, address := 0xFE00#16, word := 0x8000#16 }, 0x8000#16, 0x0078#16) := by
  decide
theorem test_stop_during_wait :
    after (fun t => (t.status, t.reg 0))
      { machine 0x3000#16 0x0000#16 with input := [0x78#8], wait := .inWait, stopRequest := true } =
      some (Status.interrupted, 0x0000#16) := by decide

/-! ## Reset, and a placed word -/

/-- From reset with nothing placed, the zero word is fetched: a BR that is never taken (30_encoding.md R97). -/
theorem test_step_from_reset :
    after (fun t => (t.pc, t.status)) State.reset = some (0x3001#16, Status.running) := by decide
theorem test_placed_word_runs :
    after (fun t => (t.reg 3, t.cond)) (State.reset.withFetchWord 16 0x16EF) = some (0x000F#16, 0b001#3) := by decide

/-! ## Witnesses: for each obligation with hypotheses, values that meet them, clause by clause -/

/-- A word at PC that is not KBSR_ADDR, the run under way. -/
def live (w : Word) : State := machine 0x3000#16 w

/-- A state waiting for IN's character. -/
def waiting (cs : List Byte) : State := { machine 0x3001#16 0x0000#16 with wait := .inWait, input := cs }

/-- A string of one character in the last word of memory, with no zero word after it, in R0's reach. -/
def lastWord (w : Word) : State := machine 0x3000#16 w [(0, 0xFFFF#16)] [(0xFFFF#16, 0x4241#16)]

theorem lastWord_no_zero (w : Word) (b : Nat) (h : 0xFFFF ≤ b) (h' : b < 65536) (hw : w = 0xF022#16 ∨ w = 0xF024#16) :
    (lastWord w).mem.read b ≠ 0x0000#16 := by
  obtain rfl : b = 65535 := by omega
  rcases hw with rfl | rfl <;> decide

theorem trap_isTrapAt (ign : BitVec 4) (v : BitVec 8) : (Instr.trap ign v).isTrapAt v := .inl ⟨ign, rfl⟩

theorem witness_DecodeReadsOpcodeTable :
    (field 0x1283#16 12 4 = 0x1#4 ∧ field 0x1283#16 5 1 = 0#1) ∧ (field 0x127F#16 12 4 = 0x1#4 ∧ field 0x127F#16 5 1 = 1#1) ∧
    (field 0x54C4#16 12 4 = 0x5#4 ∧ field 0x54C4#16 5 1 = 0#1) ∧ (field 0x5020#16 12 4 = 0x5#4 ∧ field 0x5020#16 5 1 = 1#1) ∧
    field 0x907F#16 12 4 = 0x9#4 ∧ field 0x0405#16 12 4 = 0x0#4 ∧
    (field 0xC180#16 12 4 = 0xC#4 ∧ regField 0xC180#16 6 ≠ 7) ∧ (field 0xC1C0#16 12 4 = 0xC#4 ∧ regField 0xC1C0#16 6 = 7) ∧
    (field 0x4804#16 12 4 = 0x4#4 ∧ field 0x4804#16 11 1 = 1#1) ∧ (field 0x40C0#16 12 4 = 0x4#4 ∧ field 0x40C0#16 11 1 = 0#1) ∧
    field 0x2202#16 12 4 = 0x2#4 ∧ field 0xA5FD#16 12 4 = 0xA#4 ∧ field 0x6720#16 12 4 = 0x6#4 ∧
    field 0xE8FF#16 12 4 = 0xE#4 ∧ field 0x3201#16 12 4 = 0x3#4 ∧ field 0xB400#16 12 4 = 0xB#4 ∧
    field 0x7705#16 12 4 = 0x7#4 ∧ field 0xF026#16 12 4 = 0xF#4 ∧ field 0xDFFF#16 12 4 = 0xD#4 ∧
    field 0x8000#16 12 4 = 0x8#4 := by decide

theorem witness_DecodeOfEncode : (Instr.jmp 0b111#3 6 0b111111#6).wf = true ∧ (Instr.trap 0b0000#4 0x26#8).wf = true ∧
    (Instr.trap 0b1111#4 0x20#8).wf = true ∧ Instr.halt.wf = true := by decide

theorem witness_IgnoredBitsChangeNothing : (Instr.trap 0b1111#4 0x22#8).isTrapAt 0x22#8 ∧ Instr.puts.isTrapAt 0x22#8 :=
  ⟨trap_isTrapAt _ _, .inr (.inr (.inr (.inl ⟨rfl, rfl⟩)))⟩

theorem witness_SignAndZeroExtension : (1 ≤ 1 ∧ 1 ≤ 16) ∧ (1 ≤ 16 ∧ 16 ≤ 16) := by decide

theorem witness_BridgedRead : ((live 0x0000#16).mem.wf ∧ (live 0x0000#16).params.wf) ∧
    0xFE01#16 ≠ (live 0x0000#16).params.kbsrAddr ∧
    (0xFE00#16 = (live 0x0000#16).params.kbsrAddr ∧ (live 0x0000#16).input = []) ∧
    (0xFE00#16 = (waiting [0x78#8]).params.kbsrAddr ∧ (waiting [0x78#8]).input = 0x78#8 :: [] ∧
      (waiting [0x78#8]).mem.wf ∧ (waiting [0x78#8]).params.wf) := by decide

theorem witness_PlainWrite : (live 0x1283#16).mem.wf := by decide

theorem witness_CanonicalMemoryIsExtensional : ∃ m m' : Memory, m.wf ∧ m'.wf ∧ m ≠ [] ∧
    ∀ a, a < 65536 → m.read a = m'.read a :=
  ⟨[(5, 0x0001#16), (65535, 0x0002#16)], Memory.write (Memory.write [] 65535 0x0002#16) 5 0x0001#16, by decide, by decide,
    by decide, fun _ _ => rfl⟩

theorem witness_StepRunsDecodedInstruction :
    ((live 0x1283#16).Fetches ∧ (live 0x1283#16).pc ≠ (live 0x1283#16).params.kbsrAddr) ∧
    ((machine 0xFE00#16 0x1234#16).Fetches ∧
      (machine 0xFE00#16 0x1234#16).pc = (machine 0xFE00#16 0x1234#16).params.kbsrAddr) := by decide

theorem witness_StepOrder : { live 0x0000#16 with status := .halted }.status ≠ .running ∧
    ({ live 0x0000#16 with stopRequest := true }.status = .running ∧
      { live 0x0000#16 with stopRequest := true }.stopRequest = true) ∧
    ((waiting []).status = .running ∧ (waiting []).stopRequest = false ∧ (waiting []).wait ≠ .none) ∧
    ((live 0x0000#16).status = .running ∧ (live 0x0000#16).stopRequest = false ∧ (live 0x0000#16).wait = .none) := by
  decide

theorem witness_InputWait :
    ((waiting []).status = .running ∧ (waiting []).stopRequest = false ∧ (waiting []).wait ≠ .none ∧
      (waiting []).input = []) ∧
    ((waiting [0x79#8]).status = .running ∧ (waiting [0x79#8]).stopRequest = false ∧ (waiting [0x79#8]).wait ≠ .none ∧
      (waiting [0x79#8]).input = 0x79#8 :: []) ∧
    (∃ t, exec (.trap 0#4 0x21#8) (live 0#16) = .next t ∧ ¬ (Instr.trap 0#4 0x21#8).isTrapAt 0x20#8 ∧
      ¬ (Instr.trap 0#4 0x21#8).isTrapAt 0x23#8) ∧
    (∃ t, exec (.trap 0xF#4 0x20#8) (live 0#16) = .next t ∧ (Instr.trap 0xF#4 0x20#8).isTrapAt 0x20#8) ∧
    (∃ t, exec .inp (live 0#16) = .next t ∧ Instr.inp.isTrapAt 0x23#8) :=
  ⟨by decide, by decide, ⟨_, rfl, by simp [Instr.isTrapAt], by simp [Instr.isTrapAt]⟩, ⟨_, rfl, trap_isTrapAt _ _⟩,
    ⟨_, rfl, by simp [Instr.isTrapAt]⟩⟩

theorem witness_PlacedWordRuns : (State.reset.mem.wf ∧ 16 ≤ 16 ∧ 65535 < 2 ^ 16) ∧
    ((machine 0xFE00#16 0x1234#16).mem.wf ∧ 0 ≤ 16 ∧ 0 < 2 ^ 0) := by decide

theorem witness_StoreSeenByNextFetch :
    let s := machine 0x3001#16 0x0000#16 [(0, 0xF025#16), (1, 0x3001#16)] [(0x3001#16, 0x3001#16)]
    s.mem.wf ∧ s.Fetches ∧
    (∃ t, exec (.st 0 0#9) s = .next t ∧ (Instr.st 0 0#9).storeAddr s = some t.pc ∧ t.pc ≠ t.params.kbsrAddr) ∧
    (∃ t, exec (.sti 0 0#9) s = .next t ∧ (Instr.sti 0 0#9).storeAddr s = some t.pc ∧ t.pc ≠ t.params.kbsrAddr) ∧
    (∃ t, exec (.str 0 1 0#6) s = .next t ∧ (Instr.str 0 1 0#6).storeAddr s = some t.pc ∧ t.pc ≠ t.params.kbsrAddr) :=
  ⟨by decide, by decide, ⟨_, rfl, by decide⟩, ⟨_, rfl, by decide⟩, ⟨_, rfl, by decide⟩⟩

theorem witness_AddResult : field 0x1283#16 12 4 = 0x1#4 ∧ field 0x127F#16 12 4 = 0x1#4 := by decide
theorem witness_AndResult : field 0x54C4#16 12 4 = 0x5#4 ∧ field 0x5020#16 12 4 = 0x5#4 := by decide
theorem witness_NotResult : field 0x907F#16 12 4 = 0x9#4 := by decide
theorem witness_BrResult : field 0x0405#16 12 4 = 0x0#4 ∧ (live 0x0405#16).cond = 0b000#3 := by decide
theorem witness_JmpAndRetResult : field 0xC080#16 12 4 = 0xC#4 ∧ field 0xC1C0#16 12 4 = 0xC#4 := by decide
theorem witness_JsrResult : field 0x4C00#16 12 4 = 0x4#4 ∧ field 0x4C00#16 11 1 = 1#1 := by decide
theorem witness_JsrrResult : field 0x41C0#16 12 4 = 0x4#4 ∧ field 0x41C0#16 11 1 = 0#1 := by decide
theorem witness_LdResult : field 0x2202#16 12 4 = 0x2#4 := by decide
theorem witness_LdiResult : field 0xA5FD#16 12 4 = 0xA#4 := by decide
theorem witness_LdrResult : field 0x6720#16 12 4 = 0x6#4 := by decide
theorem witness_LeaResult : field 0xE8FF#16 12 4 = 0xE#4 := by decide
theorem witness_StResult : field 0x3201#16 12 4 = 0x3#4 ∧ (live 0x3201#16).mem.wf := by decide
theorem witness_StiResult : field 0xB400#16 12 4 = 0xB#4 ∧ (live 0xB400#16).mem.wf := by decide
theorem witness_StrResult : field 0x7705#16 12 4 = 0x7#4 ∧ (live 0x7705#16).mem.wf := by decide

theorem witness_TrapDispatch : field 0xFF25#16 12 4 = 0xF#4 ∧ (Instr.trap 0xF#4 0x25#8).isTrapAt 0x25#8 ∧
    Instr.halt.isTrapAt 0x25#8 ∧ ∃ t, exec .halt (live 0xF025#16) = .next t :=
  ⟨by decide, trap_isTrapAt _ _, by simp [Instr.isTrapAt], ⟨_, rfl⟩⟩

theorem witness_GetcResult : Instr.getc.isTrapAt 0x20#8 ∧
    (let t := { waiting [0x6B#8] with wait := .getcWait }
     t.status = .running ∧ t.stopRequest = false ∧ t.wait = .getcWait ∧ t.input = 0x6B#8 :: []) ∧
    (let t := { waiting [] with wait := .getcWait }
     t.status = .running ∧ t.stopRequest = false ∧ t.wait = .getcWait ∧ t.input = []) :=
  ⟨by simp [Instr.isTrapAt], by decide, by decide⟩

theorem witness_OutResult : Instr.out.isTrapAt 0x21#8 ∧ (Instr.trap 0xF#4 0x21#8).isTrapAt 0x21#8 :=
  ⟨by simp [Instr.isTrapAt], trap_isTrapAt _ _⟩

theorem witness_PutsResult : Instr.puts.isTrapAt 0x22#8 ∧
    (let s := machine 0x3001#16 0#16 [(0, 0xFFFE#16)] [(0xFFFE#16, 0x0041#16)]
     (s.reg 0).toNat + 1 < 65536 ∧ (∀ k, k < 1 → s.mem.read ((s.reg 0).toNat + k) ≠ 0x0000#16) ∧
      s.mem.read ((s.reg 0).toNat + 1) = 0x0000#16) ∧
    (∀ b, ((lastWord 0xF022#16).reg 0).toNat ≤ b → b < 65536 → (lastWord 0xF022#16).mem.read b ≠ 0x0000#16) :=
  ⟨by simp [Instr.isTrapAt], by decide, fun b h h' => lastWord_no_zero _ b h h' (.inl rfl)⟩

theorem witness_InResult : Instr.inp.isTrapAt 0x23#8 ∧
    ((waiting [0x79#8]).status = .running ∧ (waiting [0x79#8]).stopRequest = false ∧ (waiting [0x79#8]).wait = .inWait ∧
      (waiting [0x79#8]).input = 0x79#8 :: []) :=
  ⟨by simp [Instr.isTrapAt], by decide⟩

theorem witness_PutspResult : Instr.putsp.isTrapAt 0x24#8 ∧
    (let s := machine 0x3001#16 0#16 [(0, 0x4000#16)] [(0x4000#16, 0x4100#16)]
     (s.reg 0).toNat + 1 < 65536 ∧ (∀ k, k < 1 → s.mem.read ((s.reg 0).toNat + k) ≠ 0x0000#16) ∧
      s.mem.read ((s.reg 0).toNat + 1) = 0x0000#16) ∧
    (∀ b, ((lastWord 0xF024#16).reg 0).toNat ≤ b → b < 65536 → (lastWord 0xF024#16).mem.read b ≠ 0x0000#16) :=
  ⟨by simp [Instr.isTrapAt], by decide, fun b h h' => lastWord_no_zero _ b h h' (.inr rfl)⟩

theorem witness_ScanOverrunFault : (lastWord 0xF024#16).Fetches ∧ field (lastWord 0xF024#16).fetchWord 12 4 = 0xF#4 ∧
    field (lastWord 0xF024#16).fetchWord 0 8 = 0x24#8 ∧
    ∀ b, ((lastWord 0xF024#16).reg 0).toNat ≤ b → b < 65536 → (lastWord 0xF024#16).afterFetch.mem.read b ≠ 0x0000#16 :=
  ⟨by decide, by decide, by decide, fun b h h' => lastWord_no_zero _ b h h' (.inr rfl)⟩

theorem witness_HaltResult : (live 0xFF25#16).Fetches ∧ (decode (live 0xFF25#16).fetchWord).isTrapAt 0x25#8 ∧
    ∃ t, step (live 0xFF25#16) = .next t :=
  ⟨by decide, .inl ⟨0xF#4, by decide⟩, ⟨_, rfl⟩⟩

theorem witness_UnrecognisedVector : 0x1F#8 ≠ 0x20#8 ∧ 0x1F#8 ≠ 0x21#8 ∧ 0x1F#8 ≠ 0x22#8 ∧ 0x1F#8 ≠ 0x23#8 ∧
    0x1F#8 ≠ 0x24#8 ∧ 0x1F#8 ≠ 0x25#8 ∧ 0x26#8 ≠ 0x20#8 ∧ 0x26#8 ≠ 0x21#8 ∧ 0x26#8 ≠ 0x22#8 ∧ 0x26#8 ≠ 0x23#8 ∧
    0x26#8 ≠ 0x24#8 ∧ 0x26#8 ≠ 0x25#8 := by decide

theorem witness_ResFault : (live 0xDFFF#16).Fetches ∧ field (live 0xDFFF#16).fetchWord 12 4 = 0xD#4 := by decide
theorem witness_RtiFault : (live 0x8000#16).Fetches ∧ field (live 0x8000#16).fetchWord 12 4 = 0x8#4 := by decide

theorem witness_FatalIsFinal : ((live 0xD000#16).Fetches ∧ field (live 0xD000#16).fetchWord 12 4 = 0xD#4 ∧
      ∃ t, step (live 0xD000#16) = .next t) ∧
    ((live 0x8000#16).Fetches ∧ field (live 0x8000#16).fetchWord 12 4 = 0x8#4 ∧ ∃ t, step (live 0x8000#16) = .next t) :=
  ⟨⟨by decide, by decide, ⟨_, rfl⟩⟩, ⟨by decide, by decide, ⟨_, rfl⟩⟩⟩

theorem witness_StopRequest : ((live 0#16).status = .running) ∧
    ({ live 0#16 with stopRequest := true }.status = .running ∧ { live 0#16 with stopRequest := true }.stopRequest = true) ∧
    (∃ t, exec .halt (live 0#16) = .next t) ∧ { live 0#16 with status := .interrupted }.status ≠ .running :=
  ⟨by decide, by decide, ⟨_, rfl⟩, by decide⟩

theorem witness_RunEnds :
    (∃ t, step { live 0#16 with stopRequest := true } = .next t ∧ t.status ≠ .running) ∧
    (∃ t, step (live 0xF025#16) = .next t ∧ t.status ≠ .running) ∧
    (∃ t, step (live 0xD000#16) = .next t ∧ t.status ≠ .running) ∧
    (∃ t, step (live 0x8000#16) = .next t ∧ t.status ≠ .running) ∧
    (∃ t, step (lastWord 0xF022#16) = .next t ∧ t.status ≠ .running) ∧
    { live 0#16 with status := .halted }.status ≠ .running :=
  ⟨⟨_, rfl, by decide⟩, ⟨_, rfl, by decide⟩, ⟨_, rfl, by decide⟩, ⟨_, rfl, by decide⟩, ⟨_, rfl, by decide⟩, by decide⟩

theorem witness_EveryInstructionCompletes : (live 0xD000#16).Fetches := by decide

theorem witness_CondWritersAndReader :
    (∃ t, exec (.ld 1 0#9) (live 0#16) = .next t ∧ ∀ nzp off9, Instr.ld 1 0#9 ≠ .br nzp off9) ∧
    (∃ t, exec (.st 1 0#9) (live 0#16) = .next t ∧ ∀ nzp off9, Instr.st 1 0#9 ≠ .br nzp off9) ∧
    (∃ t, completeInputWait (waiting [0x79#8]) = .next t) :=
  ⟨⟨_, rfl, by simp⟩, ⟨_, rfl, by simp⟩, ⟨_, rfl⟩⟩

theorem witness_RegisterFrame :
    (∃ t, exec (.jsrr 0#2 3 0#6) (live 0#16) = .next t ∧ 6 ∉ (Instr.jsrr 0#2 3 0#6).gprWrites (live 0#16).params) ∧
    (∃ t, completeInputWait (waiting [0x79#8]) = .next t) ∧ (1 : RegIdx) ≠ 0 ∧
    (∃ t, step { live 0#16 with stopRequest := true } = .next t ∧ { live 0#16 with stopRequest := true }.stopRequest = true) :=
  ⟨⟨_, rfl, by decide⟩, ⟨_, rfl⟩, by decide, ⟨_, rfl, by decide⟩⟩

theorem witness_RegisterReaders :
    (∃ t, exec (.trap 0#4 0x21#8) (live 0#16) = .next t ∧ 1 ∉ (Instr.trap 0#4 0x21#8).gprReads) ∧
    (∃ t, exec (.addReg 1 2 0#2 3) (live 0#16) = .next t ∧ 1 ∉ (Instr.addReg 1 2 0#2 3).gprReads) :=
  ⟨⟨_, rfl, by decide⟩, ⟨_, rfl, by decide⟩⟩

theorem witness_PcFrame : (∃ t, exec .puts (live 0#16) = .next t ∧ Instr.puts.writesPc = false) ∧
    (∃ t, step (waiting [0x79#8]) = .next t ∧ ¬ (waiting [0x79#8]).Fetches) :=
  ⟨⟨_, rfl, rfl⟩, ⟨_, rfl, by decide⟩⟩

theorem witness_MemoryFrame :
    let s := machine 0x3001#16 0xFE00#16 [] [(0x4000#16, 0x0001#16)]
    s.mem.wf ∧
    (∃ t, exec (.sti 1 0#9) s = .next t ∧ (Instr.sti 1 0#9).storeAddr s ≠ some 0x4000#16 ∧ ¬ (Instr.sti 1 0#9).polls s) ∧
    (∃ t, exec (.ldi 1 0#9) s = .next t ∧ (Instr.ldi 1 0#9).storeAddr s ≠ some 0x4000#16 ∧ (Instr.ldi 1 0#9).polls s ∧
      0x4000#16 ≠ s.params.kbsrAddr ∧ 0x4000#16 ≠ s.params.kbdrAddr) ∧
    (∃ t, exec .getc s = .next t ∧ Instr.getc.storeAddr s = none ∧ ¬ Instr.getc.polls s) :=
  ⟨by decide, ⟨_, rfl, by decide, by unfold Instr.polls; decide⟩, ⟨_, rfl, by decide, by unfold Instr.polls; decide, by decide⟩,
    ⟨_, rfl, rfl, by unfold Instr.polls; decide⟩⟩

theorem witness_InputTakenOnlyByPollOrWait :
    (∃ t, exec .getc (live 0#16) = .next t ∧ ¬ Instr.getc.polls (live 0#16)) ∧
    (∃ t, step (waiting [0x79#8]) = .next t) ∧
    (∃ t, step (live 0xF020#16) = .next t ∧ (live 0xF020#16).Fetches ∧
      (live 0xF020#16).pc ≠ (live 0xF020#16).params.kbsrAddr ∧
      ¬ (decode (live 0xF020#16).fetchWord).polls (live 0xF020#16).afterFetch) :=
  ⟨⟨_, rfl, by unfold Instr.polls; decide⟩, ⟨_, rfl⟩, ⟨_, rfl, by decide, by decide, by unfold Instr.polls; decide⟩⟩

theorem witness_OutputFrame : (∃ t, exec (.rti 0#12) (live 0#16) = .next t ∧ (Instr.rti 0#12).isTrap = false) ∧
    (∃ t, step (live 0xF025#16) = .next t) :=
  ⟨⟨_, rfl, rfl⟩, ⟨_, rfl⟩⟩

theorem witness_RunStateFrame : (∃ t, exec (.ld 1 0#9) (live 0#16) = .next t ∧ (Instr.ld 1 0#9).isTrap = false ∧
      (∀ x, Instr.ld 1 0#9 ≠ .res x) ∧ ∀ x, Instr.ld 1 0#9 ≠ .rti x) ∧
    (∃ t, step (live 0xF025#16) = .next t) :=
  ⟨⟨_, rfl, rfl, by simp, by simp⟩, ⟨_, rfl⟩⟩

theorem witness_StepKeepsInv : ∃ t, (live 0xD000#16).Inv ∧ step (live 0xD000#16) = .next t :=
  ⟨_, { mem_wf := by decide, cond_legal := by decide, params_wf := by decide, wait_live := by decide,
        fault_sound := fun f h => by cases h }, rfl⟩

theorem witness_CondStaysOneFlag : ∃ s t, condOne s.cond ∧ s.status = .running ∧ Reaches s t ∧ t.status = .interrupted :=
  ⟨(live 0x0405#16).setCond 0b010#3, _, by decide, by decide,
    .core (.host .requestStop (.core .start rfl)) rfl, rfl⟩

theorem witness_LaunchedRunsMeetInv :
    let p := { defaultParams with kbsrAddr := 0x1000#16, trapLinksR7 := true }
    let img : Image := { origin := 0x3000#16, words := [0xF025#16] }
    p.wf ∧ condLegal 0b010#3 ∧
    ∃ t, Reaches (State.launch p defaultResetGpr 0b010#3 img []) t ∧ t.status = .halted :=
  ⟨by decide, by decide, _, .core .start rfl, rfl⟩

theorem witness_EndState :
    (∃ t, step { live 0#16 with stopRequest := true } = .next t ∧ t.status ≠ .running) ∧
    (∃ t, step (live 0xF025#16) = .next t ∧ t.status ≠ .running) ∧
    (∃ t, step (lastWord 0xF024#16) = .next t ∧ t.status ≠ .running) ∧
    (∃ t, step (waiting [0x79#8]) = .next t) :=
  ⟨⟨_, rfl, by decide⟩, ⟨_, rfl, by decide⟩, ⟨_, rfl, by decide⟩, ⟨_, rfl⟩⟩

theorem witness_ImageLoading : Memory.wf [(0x3000, 0x1234#16)] ∧ 65535 < 65536 := by decide

end Sys2Proof.Tests
end

section
/-! Words and bytes: the spec lemmas of `sext`, `highByte` and `lowByte`, and the widening rules of 00_scope.md R13. -/

namespace Sys2Proof.Machine

/-- Bit by bit, sign extension keeps the low `n` bits and repeats the sign bit above them. -/
theorem getLsbD_sext {n : Nat} (v : BitVec n) {i : Nat} (hi : i < 16) :
    (sext v).getLsbD i = if i < n then v.getLsbD i else v.msb := by
  rw [sext, BitVec.getLsbD_signExtend, decide_eq_true hi, Bool.true_and]

/-- The mask `0xFFFF << n` of R13 has exactly the bits from `n` upwards set. -/
theorem getLsbD_ones_shiftLeft (n : Nat) {i : Nat} (hi : i < 16) :
    (0xFFFF#16 <<< n).getLsbD i = decide (n ≤ i) := by
  have inWidth : i - n < 16 := by omega
  change (BitVec.allOnes 16 <<< n).getLsbD i = _
  rw [BitVec.getLsbD_shiftLeft, BitVec.getLsbD_allOnes]
  simp only [hi, inWidth, decide_true, Bool.true_and, Bool.and_true, ← decide_not, Nat.not_lt]

theorem sext_of_msb_true {n : Nat} (v : BitVec n) (h : v.msb = true) :
    sext v = (0xFFFF#16 <<< n) ||| v.setWidth 16 := by
  refine BitVec.eq_of_getLsbD_eq fun i hi => ?_
  rw [getLsbD_sext v hi, BitVec.getLsbD_or, getLsbD_ones_shiftLeft n hi, BitVec.getLsbD_setWidth]
  by_cases below : i < n
  · simp [below, hi]
  · simp [below, h, Nat.le_of_not_lt below]

theorem sext_of_msb_false {n : Nat} (v : BitVec n) (h : v.msb = false) : sext v = v.setWidth 16 :=
  BitVec.signExtend_eq_setWidth_of_msb_false h

/-- R13's formula. It needs no bound on the width: for `n = 0` the value is empty, and past 16 bits the mask is zero and
both sides truncate. -/
theorem sext_eq_ite {n : Nat} (v : BitVec n) :
    sext v = if v.getLsbD (n - 1) then (0xFFFF#16 <<< n) ||| v.setWidth 16 else v.setWidth 16 := by
  rw [← BitVec.msb_eq_getLsbD_last]
  split
  case isTrue h => exact sext_of_msb_true v h
  case isFalse h => exact sext_of_msb_false v (eq_false_of_ne_true h)

@[simp] theorem sext_word (v : Word) : sext v = v := BitVec.signExtend_eq v

@[simp] theorem highByte_setWidth (c : Byte) : highByte (c.setWidth 16) = 0x00#8 := by
  refine BitVec.eq_of_getLsbD_eq fun i _ => ?_
  have beyond : c.getLsbD (8 + i) = false := BitVec.getLsbD_of_ge c (8 + i) (Nat.le_add_right 8 i)
  rw [highByte, BitVec.getLsbD_extractLsb', BitVec.getLsbD_setWidth, beyond]
  simp

@[simp] theorem lowByte_setWidth (c : Byte) : lowByte (c.setWidth 16) = c :=
  (BitVec.extractLsb'_setWidth_of_le (by decide)).trans BitVec.extractLsb'_eq_self

/-- Settles O6: R13's formula bit by bit, the identity on words, a character's two bytes, and the source's two
examples, one for each sign. -/
theorem signAndZeroExtension : Obligations.SignAndZeroExtension := by
  unfold Obligations.SignAndZeroExtension
  refine ⟨fun _ _ _ v => sext_eq_ite v, sext_word, fun c => ⟨highByte_setWidth c, lowByte_setWidth c⟩, ?_, ?_⟩
  · exact sext_of_msb_true 0x1F#5 rfl
  · exact sext_of_msb_false 0x0F#5 rfl

end Sys2Proof.Machine
end

section
/-! The condition flags: `setcc` (10_state.md R35), which instructions write COND and which read it (R37). -/

namespace Sys2Proof.Machine

/-! ## setcc (10_state.md R35) -/

@[simp] theorem condOf_zero : condOf 0x0000#16 = condZ := rfl

theorem condOf_of_msb_true {v : Word} (h : v.msb = true) : condOf v = condN := by
  have nonzero : v ≠ 0x0000#16 := by rintro rfl; exact absurd h (by decide)
  simp only [condOf, nonzero, h, if_false, if_true]

theorem condOf_of_msb_false {v : Word} (nonzero : v ≠ 0x0000#16) (h : v.msb = false) : condOf v = condP := by
  simp only [condOf, nonzero, h, if_false, Bool.false_eq_true]

/-- `setcc` sets exactly one flag. -/
theorem condOne_condOf (v : Word) : condOne (condOf v) := by
  by_cases zero : v = 0x0000#16
  · exact .inr (.inl (zero ▸ condOf_zero))
  · cases sign : v.msb with
    | true => exact .inl (condOf_of_msb_true sign)
    | false => exact .inr (.inr (condOf_of_msb_false zero sign))

/-- Settles O7: bit 15 is the sign bit that `condOf` tests, and each of its three values is one flag. -/
theorem setccRule : Obligations.SetccRule := by
  unfold Obligations.SetccRule
  refine fun v => ⟨?_, condOne_condOf v⟩
  have bit15 : v.getLsbD 15 = v.msb := (BitVec.msb_eq_getLsbD_last v).symm
  rw [bit15, condOf]

/-! ## Writers of COND (10_state.md R37) -/

/-- A result sets COND from the destination it is written to. -/
theorem State.setResult_cond_eq_condOf_reg (s : State) (dr : RegIdx) (v : Word) :
    (s.setResult dr v).cond = condOf ((s.setResult dr v).reg dr) := by
  rw [setResult_reg, if_pos rfl, setResult_cond]

/-- A load is a result written after its bridged read. -/
theorem State.loadFrom_cond_eq_condOf_reg (s : State) (dr : RegIdx) (ea : Word) :
    (s.loadFrom dr ea).cond = condOf ((s.loadFrom dr ea).reg dr) := by
  rw [loadFrom, setResult_cond_eq_condOf_reg]

theorem trapDispatch_cond (ir : Word) (v : BitVec 8) (s : State) : (trapDispatch ir v s).cond = s.cond := by
  rcases trapDispatch_cases ir v s with ⟨-, e⟩ | ⟨-, e⟩ | ⟨-, e⟩ | ⟨-, _, e⟩ | ⟨-, -, -, _, e⟩ <;>
    rw [e] <;> exact s.trapLink_cond

theorem flagDest_eq_none_of_isTrap {i : Instr} (h : i.isTrap = true) : i.flagDest = none := by
  cases i with
  | trap | getc | out | puts | inp | putsp | halt => rfl
  | _ => exact absurd h Bool.false_ne_true

/-- COND after an instruction: from its flag destination's new value, or as it was where it has none. -/
theorem exec_cond {i : Instr} {s t : State} (h : exec i s = .next t) :
    t.cond = i.flagDest.elim s.cond fun dr => condOf (t.reg dr) := by
  rcases exec_shape i s with ⟨v, hv⟩ | ⟨-, hs⟩
  · obtain ⟨run, isTrap⟩ := exec_of_isTrapAt hv s
    obtain rfl := Host.Outcome.next.inj (run.symm.trans h)
    rw [flagDest_eq_none_of_isTrap isTrap]
    exact trapDispatch_cond _ v s
  · cases hs with
    | result dr v flag _ _ _ _ run =>
      obtain rfl := Host.Outcome.next.inj (run.symm.trans h)
      rw [flag, Option.elim_some, s.setResult_cond_eq_condOf_reg]
    | load dr ea flag _ _ _ _ run =>
      obtain rfl := Host.Outcome.next.inj (run.symm.trans h)
      rw [flag, Option.elim_some, s.loadFrom_cond_eq_condOf_reg]
    | loadIndirect dr off9 eq run =>
      obtain rfl := Host.Outcome.next.inj (run.symm.trans h)
      have flag : i.flagDest = some dr := congrArg Instr.flagDest eq
      rw [flag, Option.elim_some, State.loadFrom_cond_eq_condOf_reg]
    | jump _ flag _ _ _ run | call _ flag _ _ _ _ run | store _ _ flag _ _ _ run =>
      obtain rfl := Host.Outcome.next.inj (run.symm.trans h)
      rw [flag]
      rfl
    | storeIndirect _ _ eq run =>
      obtain rfl := Host.Outcome.next.inj (run.symm.trans h)
      rw [eq]
      exact (State.memWrite_cond _ _ _).trans (s.afterRead_cond _)
    | res _ eq run | rti _ eq run =>
      obtain rfl := Host.Outcome.next.inj (run.symm.trans h)
      rw [eq]
      rfl

/-- The input wait completes only by taking the oldest character (40_cycle.md R125). -/
theorem completeInputWait_eq_next {s t : State} (h : completeInputWait s = .next t) :
    ∃ c rest, s.input = c :: rest ∧ t = s.inputArrived c rest := by
  unfold completeInputWait at h
  split at h
  · cases h
  · next c rest queued => exact ⟨c, rest, queued, (Host.Outcome.next.inj h).symm⟩

theorem completeInputWait_cond {s t : State} (h : completeInputWait s = .next t) : t.cond = s.cond := by
  obtain ⟨c, rest, -, rfl⟩ := completeInputWait_eq_next h
  exact s.inputArrived_cond c rest

/-! ## Another COND passes through every operation but BR's test (10_state.md R37) -/

namespace State

variable (s : State) (c : BitVec 3)

theorem poll_setCond : (s.setCond c).poll = s.poll.setCond c := by
  cases h : s.input with
  | nil => rw [poll_nil s h, poll_nil (s.setCond c) h]; rfl
  | cons _ _ => rw [poll_cons s h, poll_cons (s.setCond c) h]; rfl

theorem afterRead_setCond (a : Word) : (s.setCond c).afterRead a = (s.afterRead a).setCond c := by
  simp only [afterRead, setCond_params, poll_setCond]
  split <;> rfl

theorem memRead_setCond (a : Word) : (s.setCond c).memRead a = s.memRead a :=
  memRead_congr (s.setCond_mem c) (s.setCond_input c) (s.setCond_params c) a

theorem indirect_setCond (off9 : BitVec 9) : (s.setCond c).indirect off9 = s.indirect off9 :=
  s.memRead_setCond c (s.pcRel off9)

/-- A load writes COND, so nothing is left of the one before it. -/
theorem loadFrom_setCond (dr : RegIdx) (ea : Word) : (s.setCond c).loadFrom dr ea = s.loadFrom dr ea := by
  rw [loadFrom, afterRead_setCond, memRead_setCond]
  rfl

theorem trapLink_setCond : (s.setCond c).trapLink = s.trapLink.setCond c := by
  unfold trapLink
  rw [apply_ite (setCond · c)]
  rfl

end State

theorem trapScan_setCond (chars : Word → List Byte) (ir : Word) (s : State) (c : BitVec 3) :
    trapScan chars ir (s.setCond c) = (trapScan chars ir s).setCond c := by
  unfold trapScan
  rw [apply_ite (State.setCond · c)]
  rfl

theorem trapDispatch_setCond (ir : Word) (v : BitVec 8) (s : State) (c : BitVec 3) :
    trapDispatch ir v (s.setCond c) = (trapDispatch ir v s).setCond c := by
  simp only [trapDispatch, State.trapLink_setCond, trapPuts, trapPutsp, trapScan_setCond, apply_ite (State.setCond · c)]
  rfl

theorem exec_setCond_of_isTrap {i : Instr} {s t : State} (c : BitVec 3) (isTrap : i.isTrap = true)
    (h : exec i s = .next t) : exec i (s.setCond c) = .next (t.setCond c) := by
  obtain ⟨v, hv⟩ := isTrapAt_of_isTrap isTrap
  obtain rfl := Host.Outcome.next.inj ((exec_of_isTrapAt hv s).1.symm.trans h)
  rw [(exec_of_isTrapAt hv (s.setCond c)).1, trapDispatch_setCond]

/-- The outcome from another COND: the same where the instruction writes COND, and otherwise the same but for it. -/
theorem exec_setCond {i : Instr} {s t : State} (c : BitVec 3) (notBr : ∀ nzp off9, i ≠ .br nzp off9)
    (h : exec i s = .next t) :
    exec i (s.setCond c) = .next (if i.flagDest.isSome then t else t.setCond c) := by
  cases i with
  | br nzp off9 => exact absurd rfl (notBr nzp off9)
  | addReg | addImm | andReg | andImm | not | lea =>
    obtain rfl := Host.Outcome.next.inj h
    rfl
  | ld dr | ldr dr =>
    obtain rfl := Host.Outcome.next.inj h
    exact congrArg Host.Outcome.next (s.loadFrom_setCond c dr _)
  | ldi dr off9 =>
    obtain rfl := Host.Outcome.next.inj h
    show Host.Outcome.next (((s.setCond c).afterRead (s.pcRel off9)).loadFrom dr ((s.setCond c).indirect off9)) = _
    rw [State.afterRead_setCond, State.loadFrom_setCond, State.indirect_setCond]
    rfl
  | jmp | ret | jsr | jsrr | st | str | res | rti =>
    obtain rfl := Host.Outcome.next.inj h
    rfl
  | sti sr off9 =>
    obtain rfl := Host.Outcome.next.inj h
    show Host.Outcome.next (((s.setCond c).afterRead (s.pcRel off9)).memWrite ((s.setCond c).indirect off9) _) = _
    rw [State.afterRead_setCond, State.indirect_setCond]
    rfl
  | trap | getc | out | puts | inp | putsp | halt =>
    exact exec_setCond_of_isTrap c rfl h

/-- Settles O46: the writers by the shape of each instruction, the input wait, and the reader by carrying another COND
through every operation but BR's test. -/
theorem condWritersAndReader : Obligations.CondWritersAndReader := by
  unfold Obligations.CondWritersAndReader
  refine ⟨fun i s t h => ?_, fun _ _ h => completeInputWait_cond h, fun _ _ _ c notBr h => exec_setCond c notBr h⟩
  have written := exec_cond h
  cases dest : i.flagDest with
  | some | none => rwa [dest] at written

end Sys2Proof.Machine
end

section
/-! Operate instructions (41_operate.md): the next state of ADD and NOT, from each form and from the word. -/

namespace Sys2Proof.Machine

/-- A result changes the destination register and COND, and nothing else. -/
theorem State.setResult_eq (s : State) (dr : RegIdx) (v : Word) :
    s.setResult dr v = { s with regs := s.regs.set dr v, cond := condOf v } := rfl

theorem exec_addReg (dr sr1 : RegIdx) (ign : BitVec 2) (sr2 : RegIdx) (s : State) :
    exec (.addReg dr sr1 ign sr2) s = .next (s.setResult dr (s.reg sr1 + s.reg sr2)) := rfl

theorem exec_addImm (dr sr1 : RegIdx) (imm5 : BitVec 5) (s : State) :
    exec (.addImm dr sr1 imm5) s = .next (s.setResult dr (s.reg sr1 + sext imm5)) := rfl

theorem exec_not (dr sr : RegIdx) (ign : BitVec 6) (s : State) :
    exec (.not dr sr ign) s = .next (s.setResult dr (~~~ s.reg sr)) := rfl

/-- ADD from its word (41_operate.md R140): the immediate flag chooses the second operand. -/
theorem exec_decode_opADD {ir : Word} (isAdd : opcode ir = opADD) (s : State) :
    exec (decode ir) s = .next (s.setResult (fieldDR ir) (s.reg (fieldSR1 ir) +
      if fieldImmFlag ir = 1#1 then sext (fieldImm5 ir) else s.reg (fieldSR2 ir))) := by
  rw [decode_opADD isAdd]
  rcases BitVec.eq_zero_or_eq_one (fieldImmFlag ir) with flag | flag
  · rw [flag, if_pos rfl, if_neg (by decide), exec_addReg]
  · rw [flag, if_neg (by decide), if_pos rfl, exec_addImm]

/-- NOT from its word (41_operate.md R146). -/
theorem exec_decode_opNOT {ir : Word} (isNot : opcode ir = opNOT) (s : State) :
    exec (decode ir) s = .next (s.setResult (fieldDR ir) (~~~ s.reg (fieldSR1 ir))) := by
  rw [decode_opNOT isNot, exec_not]

/-- Settles O17: each part is one result, whose sources are read in the state before its write. -/
theorem addResult : Obligations.AddResult := by
  unfold Obligations.AddResult
  simp only [← State.setResult_eq]
  exact ⟨fun _ s isAdd => exec_decode_opADD isAdd s, exec_addReg, exec_addImm⟩

/-- Settles O19: each part is one result, the complement of a source read in the state before its write. -/
theorem notResult : Obligations.NotResult := by
  unfold Obligations.NotResult
  simp only [← State.setResult_eq]
  exact ⟨fun _ s isNot => exec_decode_opNOT isNot s, exec_not⟩

end Sys2Proof.Machine
end

section
/-! Control instructions (42_control.md): the next state of BR, JMP, RET and JSR, from each form and from the word. -/

namespace Sys2Proof.Machine

/-! ## BR (42_control.md R160, R161) -/

theorem State.branchTaken_iff (s : State) (nzp : BitVec 3) : s.branchTaken nzp = true ↔ nzp &&& s.cond ≠ 0b000#3 :=
  bne_iff_ne

theorem exec_br (nzp : BitVec 3) (off9 : BitVec 9) (s : State) :
    exec (.br nzp off9) s = .next (if nzp &&& s.cond ≠ 0b000#3 then s.setPc (s.pcRel off9) else s) := by
  simp only [← s.branchTaken_iff nzp]
  rfl

theorem exec_br_of_no_common_flag {nzp : BitVec 3} {s : State} (noFlag : nzp &&& s.cond = 0b000#3) (off9 : BitVec 9) :
    exec (.br nzp off9) s = .next s := by
  rw [exec_br, if_neg (not_not_intro noFlag)]

theorem exec_decode_opBR {ir : Word} (isBr : opcode ir = opBR) (s : State) :
    exec (decode ir) s =
      .next (if fieldNzp ir &&& s.cond ≠ 0b000#3 then s.setPc (s.pcRel (fieldOff9 ir)) else s) := by
  rw [decode_opBR isBr, exec_br]

/-- Settles O20: one equation for BR's test; with an empty mask or an empty COND there is no flag in common. -/
theorem brResult : Obligations.BrResult := by
  unfold Obligations.BrResult
  refine ⟨fun _ s isBr => exec_decode_opBR isBr s, exec_br, fun off9 s => ?_, fun nzp off9 s noCond => ?_⟩
  · exact exec_br_of_no_common_flag BitVec.zero_and off9
  · exact exec_br_of_no_common_flag (by rw [noCond, BitVec.and_zero]) off9

/-! ## JMP and RET (42_control.md R163, R164) -/

theorem exec_jmp (ignHi : BitVec 3) (base : RegIdx) (ignLo : BitVec 6) (s : State) :
    exec (.jmp ignHi base ignLo) s = .next (s.setPc (s.reg base)) := rfl

theorem exec_ret (ignHi : BitVec 3) (ignLo : BitVec 6) (s : State) :
    exec (.ret ignHi ignLo) s = .next (s.setPc (s.reg 7)) := rfl

/-- RET is the row of JMP for base R7, so one equation covers both. -/
theorem exec_decode_opJMP {ir : Word} (isJmp : opcode ir = opJMP) (s : State) :
    exec (decode ir) s = .next (s.setPc (s.reg (fieldSR1 ir))) := by
  rw [decode_opJMP isJmp, decodeJmp]
  split
  case isTrue base => rw [exec_ret, base]
  case isFalse => rw [exec_jmp]

/-- Settles O21: each part puts a register in PC, and the word 0xC1C0 decodes to RET. -/
theorem jmpAndRetResult : Obligations.JmpAndRetResult := by
  unfold Obligations.JmpAndRetResult
  exact ⟨fun _ s isJmp => exec_decode_opJMP isJmp s, exec_jmp, exec_ret, by decide⟩

/-! ## JSR (42_control.md R166) -/

theorem exec_jsr (off11 : BitVec 11) (s : State) :
    exec (.jsr off11) s = .next ((s.setReg 7 s.pc).setPc (s.pcRel off11)) := rfl

theorem exec_decode_opJSR_of_flag {ir : Word} (isJsr : opcode ir = opJSR) (flag : fieldJsrFlag ir = 1#1) (s : State) :
    exec (decode ir) s = .next ((s.setReg 7 s.pc).setPc (s.pcRel (fieldOff11 ir))) := by
  rw [decode_opJSR isJsr, if_pos flag, exec_jsr]

/-- Settles O22: the link and the target are both taken from the PC that the fetch left. -/
theorem jsrResult : Obligations.JsrResult := by
  unfold Obligations.JsrResult
  exact ⟨fun _ s isJsr flag => exec_decode_opJSR_of_flag isJsr flag s, exec_jsr⟩

end Sys2Proof.Machine
end

section
/-! Load instructions (43_load.md): the next state of LD, LDI, LDR and LEA, from each form and from the word. -/

namespace Sys2Proof.Machine

/-! ## Loads through the bridge, written out -/

/-- A load leaves what its bridged read leaves, but for the destination register and COND. -/
theorem State.loadFrom_eq (s : State) (dr : RegIdx) (ea : Word) :
    s.loadFrom dr ea =
      { s.afterRead ea with regs := s.regs.set dr (s.memRead ea), cond := condOf (s.memRead ea) } := by
  rw [loadFrom, setResult_eq, afterRead_regs]

/-- A load after another bridged read: that read has left the registers alone. -/
theorem State.loadFrom_afterRead_eq (s : State) (cell : Word) (dr : RegIdx) (ea : Word) :
    (s.afterRead cell).loadFrom dr ea =
      { (s.afterRead cell).afterRead ea with
        regs := s.regs.set dr ((s.afterRead cell).memRead ea)
        cond := condOf ((s.afterRead cell).memRead ea) } := by
  rw [loadFrom_eq, afterRead_regs]

/-! ## LD (43_load.md R180) -/

theorem exec_ld (dr : RegIdx) (off9 : BitVec 9) (s : State) :
    exec (.ld dr off9) s = .next (s.loadFrom dr (s.pcRel off9)) := rfl

theorem exec_decode_opLD {ir : Word} (isLd : opcode ir = opLD) (s : State) :
    exec (decode ir) s = .next (s.loadFrom (fieldDR ir) (s.pcRel (fieldOff9 ir))) := by
  rw [decode_opLD isLd, exec_ld]

/-- Settles O24: each part is one load from the PC-relative address. -/
theorem ldResult : Obligations.LdResult := by
  unfold Obligations.LdResult
  simp only [← State.loadFrom_eq]
  exact ⟨fun _ s isLd => exec_decode_opLD isLd s, exec_ld⟩

/-! ## LDI (43_load.md R183) -/

theorem exec_ldi (dr : RegIdx) (off9 : BitVec 9) (s : State) :
    exec (.ldi dr off9) s = .next ((s.afterRead (s.pcRel off9)).loadFrom dr (s.indirect off9)) := rfl

theorem exec_decode_opLDI {ir : Word} (isLdi : opcode ir = opLDI) (s : State) :
    exec (decode ir) s =
      .next ((s.afterRead (s.pcRel (fieldOff9 ir))).loadFrom (fieldDR ir) (s.indirect (fieldOff9 ir))) := by
  rw [decode_opLDI isLdi, exec_ldi]

/-- Settles O25: each part is one load, from the pointer word, in the state that the pointer's read left. -/
theorem ldiResult : Obligations.LdiResult := by
  unfold Obligations.LdiResult
  simp only [← State.loadFrom_afterRead_eq]
  exact ⟨fun _ s isLdi => exec_decode_opLDI isLdi s, exec_ldi⟩

/-! ## LDR (43_load.md R186) -/

theorem exec_ldr (dr base : RegIdx) (off6 : BitVec 6) (s : State) :
    exec (.ldr dr base off6) s = .next (s.loadFrom dr (s.baseRel base off6)) := rfl

theorem exec_decode_opLDR {ir : Word} (isLdr : opcode ir = opLDR) (s : State) :
    exec (decode ir) s = .next (s.loadFrom (fieldDR ir) (s.baseRel (fieldSR1 ir) (fieldOff6 ir))) := by
  rw [decode_opLDR isLdr, exec_ldr]

/-- Settles O26: each part is one load, whose base register is read in the state before its write. -/
theorem ldrResult : Obligations.LdrResult := by
  unfold Obligations.LdrResult
  simp only [← State.loadFrom_eq]
  exact ⟨fun _ s isLdr => exec_decode_opLDR isLdr s, exec_ldr⟩

/-! ## LEA (43_load.md R189) -/

theorem exec_lea (dr : RegIdx) (off9 : BitVec 9) (s : State) :
    exec (.lea dr off9) s = .next (s.setResult dr (s.pcRel off9)) := rfl

theorem exec_decode_opLEA {ir : Word} (isLea : opcode ir = opLEA) (s : State) :
    exec (decode ir) s = .next (s.setResult (fieldDR ir) (s.pcRel (fieldOff9 ir))) := by
  rw [decode_opLEA isLea, exec_lea]

/-- Settles O27: each part is one result, the address itself, so no bridged read is made that could poll. -/
theorem leaResult : Obligations.LeaResult := by
  unfold Obligations.LeaResult
  simp only [← State.setResult_eq]
  exact ⟨fun _ s isLea => exec_decode_opLEA isLea s, exec_lea⟩

end Sys2Proof.Machine
end

section
/-! Store instructions (44_store.md): the decoding and the next state of ST, STI and STR. -/

namespace Sys2Proof.Machine

/-- An instruction that runs as one plain write changes memory only, and there only the word at the address written. -/
theorem exec_memWrite_frame {i : Instr} {s u : State} {a v : Word} (run : exec i s = .next (u.memWrite a v))
    (canonical : u.mem.wf) :
    ∃ t, exec i s = .next t ∧ t = { u with mem := t.mem } ∧
      ∀ b, t.plainRead b = if b = a then v else u.plainRead b :=
  ⟨u.memWrite a v, run, rfl, fun b => u.plainRead_memWrite canonical a b v⟩

theorem exec_st (sr : RegIdx) (off9 : BitVec 9) (s : State) :
    exec (.st sr off9) s = .next (s.memWrite (s.pcRel off9) (s.reg sr)) := rfl

theorem exec_sti (sr : RegIdx) (off9 : BitVec 9) (s : State) :
    exec (.sti sr off9) s = .next ((s.afterRead (s.pcRel off9)).memWrite (s.indirect off9) (s.reg sr)) := rfl

theorem exec_str (sr base : RegIdx) (off6 : BitVec 6) (s : State) :
    exec (.str sr base off6) s = .next (s.memWrite (s.baseRel base off6) (s.reg sr)) := rfl

/-- Settles O28: ST is one plain write at the PC-relative address. -/
theorem stResult : Obligations.StResult := by
  unfold Obligations.StResult
  exact ⟨fun _ isSt => decode_opST isSt,
    fun sr off9 s canonical => exec_memWrite_frame (exec_st sr off9 s) canonical⟩

/-- Settles O29: STI is one plain write at the pointer word, in the state that the pointer's read left, whose memory is
still canonical. -/
theorem stiResult : Obligations.StiResult := by
  unfold Obligations.StiResult
  exact ⟨fun _ isSti => decode_opSTI isSti,
    fun sr off9 s canonical => exec_memWrite_frame (exec_sti sr off9 s) (s.afterRead_wf canonical (s.pcRel off9))⟩

/-- Settles O30: STR is one plain write at the base-relative address; SR and BaseR are both read before it. -/
theorem strResult : Obligations.StrResult := by
  unfold Obligations.StrResult
  exact ⟨fun _ isStr => decode_opSTR isStr,
    fun sr base off6 s canonical => exec_memWrite_frame (exec_str sr base off6 s) canonical⟩

end Sys2Proof.Machine
end

section
/-! Encoding (30_encoding.md): the fields of an encoded word, adjacent fields joined back into a word, and the round
trip both ways. -/

namespace Sys2Proof

/-! ## The fields of an encoded word -/

theorem field_placeReg_same {lo : Nat} (r : RegIdx) (h : lo + 3 ≤ 16) :
    field (placeReg r lo) lo 3 = (BitVec.ofFin r : BitVec 3) := field_place_same _ h

theorem field_placeReg_disjoint {lo lo' len : Nat} (r : RegIdx) (h : lo' + len ≤ lo ∨ lo + 3 ≤ lo') :
    field (placeReg r lo) lo' len = 0#len := field_place_disjoint _ h

/-- The opcode of an instruction's row (30_encoding.md R91). -/
def Instr.opcodeNumber : Instr → BitVec 4
  | .addReg .. | .addImm .. => opADD
  | .andReg .. | .andImm .. => opAND
  | .not .. => opNOT
  | .br .. => opBR
  | .jmp .. | .ret .. => opJMP
  | .jsr .. | .jsrr .. => opJSR
  | .ld .. => opLD
  | .ldi .. => opLDI
  | .ldr .. => opLDR
  | .lea .. => opLEA
  | .st .. => opST
  | .sti .. => opSTI
  | .str .. => opSTR
  | .trap .. | .getc | .out | .puts | .inp | .putsp | .halt => opTRAP
  | .rti .. => opRTI
  | .res .. => opRES

/-- No other field of an encoded word reaches IR[15:12]. -/
theorem opcode_encode (i : Instr) : opcode (encode i) = i.opcodeNumber := by
  cases i <;> simp (disch := decide) only [encode, opcode, field_or, field_place_same, field_place_disjoint,
    field_placeReg_disjoint, BitVec.or_zero, Instr.opcodeNumber]

theorem fieldVect_encode_trap (ign : BitVec 4) (vect : BitVec 8) : fieldVect (encode (.trap ign vect)) = vect := by
  simp (disch := decide) only [encode, field_or, field_place_same, field_place_disjoint, BitVec.zero_or]

theorem field_encode_trap (ign : BitVec 4) (vect : BitVec 8) : field (encode (.trap ign vect)) 8 4 = ign := by
  simp (disch := decide) only [encode, field_or, field_place_same, field_place_disjoint, BitVec.zero_or, BitVec.or_zero]

/-! ## Decoding an encoded word -/

theorem decodeTrap_of_wf {ign : BitVec 4} {vect : BitVec 8} (h : (Instr.trap ign vect).wf = true) :
    decodeTrap ign vect = .trap ign vect := by
  by_cases zero : ign = 0#4
  · simp_all [Instr.wf, isServiceVector, decodeTrap]
  · exact if_neg zero

/-- Settles O2: the opcode selects the row, and each field of the row reads back what was placed there. -/
theorem decodeOfEncode : Obligations.DecodeOfEncode := by
  unfold Obligations.DecodeOfEncode
  intro i wf
  have op := opcode_encode i
  cases i
  case getc | out | puts | inp | putsp | halt => decide
  case trap ign vect => rw [decode_opTRAP op, field_encode_trap, fieldVect_encode_trap, decodeTrap_of_wf wf]
  case' addReg | addImm => rw [decode_opADD op]
  case' andReg | andImm => rw [decode_opAND op]
  case' not => rw [decode_opNOT op]
  case' br => rw [decode_opBR op]
  case' ret => rw [decode_opJMP op, decodeJmp]
  case' jmp => rw [decode_opJMP op, decodeJmp]; have notR7 := bne_iff_ne.mp wf
  case' jsr | jsrr => rw [decode_opJSR op]
  case' ld => rw [decode_opLD op]
  case' ldi => rw [decode_opLDI op]
  case' ldr => rw [decode_opLDR op]
  case' lea => rw [decode_opLEA op]
  case' st => rw [decode_opST op]
  case' sti => rw [decode_opSTI op]
  case' str => rw [decode_opSTR op]
  case' rti => rw [decode_opRTI op]
  case' res => rw [decode_opRES op]
  all_goals simp (disch := decide) [*, encode, regField, field_or, field_place_same, field_place_disjoint,
    field_placeReg_same, field_placeReg_disjoint]

/-! ## Fields joined back into a word -/

theorem getLsbD_place_field (w : Word) (lo n i : Nat) :
    (place (field w lo n) lo).getLsbD i = (decide (i < 16 ∧ lo ≤ i ∧ i < lo + n) && w.getLsbD i) := by
  rw [getLsbD_place, field, BitVec.getLsbD_extractLsb']
  by_cases above : lo ≤ i
  · have inField : i - lo < n ↔ i < lo + n := by omega
    simp [above, inField, Bool.and_assoc]
  · simp [above]

/-- Two fields of a word, placed where they stand, are one field when the bits between them are zero. -/
theorem place_or_place_of_gap {w : Word} {lo n hi m : Nat} (order : lo + n ≤ hi)
    (gap : field w (lo + n) (hi - (lo + n)) = 0#(hi - (lo + n))) :
    place (field w hi m) hi ||| place (field w lo n) lo = place (field w lo (hi - lo + m)) lo := by
  refine BitVec.eq_of_getLsbD_eq fun i _ => ?_
  simp only [BitVec.getLsbD_or, getLsbD_place_field]
  cases bit : w.getLsbD i with
  | false => simp
  | true =>
    have outside : ¬ (lo + n ≤ i ∧ i < hi) := fun ⟨above, below⟩ => by
      have zero := congrArg (·.getLsbD (i - (lo + n))) gap
      simp only [field, BitVec.getLsbD_extractLsb', Nat.add_sub_cancel' above, bit] at zero
      simp at zero
      omega
    simp only [Bool.and_true, ← Bool.decide_or, decide_eq_decide]
    omega

theorem place_or_place {w : Word} {lo n hi m : Nat} (adjacent : lo + n = hi) :
    place (field w hi m) hi ||| place (field w lo n) lo = place (field w lo (hi - lo + m)) lo :=
  place_or_place_of_gap adjacent.le (by subst adjacent; exact BitVec.eq_of_getLsbD_eq fun i h => by omega)

theorem place_field_whole (w : Word) {n : Nat} (whole : n = 16) : place (field w 0 n) 0 = w := by
  refine BitVec.eq_of_getLsbD_eq fun i inWord => ?_
  rw [getLsbD_place_field]
  simp [whole, inWord]

/-! ### The formats (30_encoding.md R94): a word is its fields, placed where they stand -/

section
variable {w : Word} {op : BitVec 4} (isOp : opcode w = op)
include isOp

theorem place_fields_off9 : place op 12 ||| place (field w 9 3) 9 ||| place (fieldOff9 w) 0 = w := by
  subst isOp
  simp (disch := decide) only [place_or_place, place_field_whole]

theorem place_fields_off6 :
    place op 12 ||| place (field w 9 3) 9 ||| place (field w 6 3) 6 ||| place (fieldOff6 w) 0 = w := by
  subst isOp
  simp (disch := decide) only [place_or_place, place_field_whole]

theorem place_fields_register (flag : fieldImmFlag w = 0#1) :
    place op 12 ||| place (field w 9 3) 9 ||| place (field w 6 3) 6 ||| place (field w 3 2) 3 |||
      place (field w 0 3) 0 = w := by
  subst isOp
  simp (disch := decide) only [place_or_place, place_field_whole,
    place_or_place_of_gap (lo := 3) (n := 2) (hi := 6) (by decide) flag]

theorem place_fields_immediate (flag : fieldImmFlag w = 1#1) :
    place op 12 ||| place (field w 9 3) 9 ||| place (field w 6 3) 6 ||| place 1#1 5 ||| place (fieldImm5 w) 0 = w := by
  rw [← flag]
  subst isOp
  simp (disch := decide) only [place_or_place, place_field_whole]

theorem place_fields_off11 (flag : fieldJsrFlag w = 1#1) :
    place op 12 ||| place 1#1 11 ||| place (fieldOff11 w) 0 = w := by
  rw [← flag]
  subst isOp
  simp (disch := decide) only [place_or_place, place_field_whole]

theorem place_fields_jsrr (flag : fieldJsrFlag w = 0#1) :
    place op 12 ||| place (field w 9 2) 9 ||| place (field w 6 3) 6 ||| place (field w 0 6) 0 = w := by
  subst isOp
  simp (disch := decide) only [place_or_place, place_field_whole,
    place_or_place_of_gap (lo := 9) (n := 2) (hi := 12) (by decide) flag]

theorem place_fields_trap : place op 12 ||| place (field w 8 4) 8 ||| place (fieldVect w) 0 = w := by
  subst isOp
  simp (disch := decide) only [place_or_place, place_field_whole]

theorem place_fields_ignored : place op 12 ||| place (field w 0 12) 0 = w := by
  subst isOp
  simp (disch := decide) only [place_or_place, place_field_whole]

end

/-! ## Encoding a decoded word -/

theorem encode_decodeTrap (ign : BitVec 4) (vect : BitVec 8) :
    encode (decodeTrap ign vect) = place opTRAP 12 ||| place ign 8 ||| place vect 0 := by
  unfold decodeTrap
  split_ifs <;> subst_vars <;> rfl

theorem wf_decodeTrap (ign : BitVec 4) (vect : BitVec 8) : (decodeTrap ign vect).wf = true := by
  unfold decodeTrap
  split_ifs <;> simp_all [Instr.wf, isServiceVector]

theorem encode_decodeJmp (w : Word) : encode (decodeJmp w) =
    place opJMP 12 ||| place (field w 9 3) 9 ||| placeReg (fieldSR1 w) 6 ||| place (field w 0 6) 0 := by
  unfold decodeJmp
  split
  case isTrue isR7 => rw [isR7]; rfl
  case isFalse => rfl

theorem wf_decodeJmp (w : Word) : (decodeJmp w).wf = true := by
  unfold decodeJmp
  split
  case isTrue => rfl
  case isFalse notR7 => exact bne_iff_ne.mpr notR7

/-- Settles O3: whatever row the opcode selects, the row's format places each field back where it was read. -/
theorem encodeOfDecode : Obligations.EncodeOfDecode := by
  unfold Obligations.EncodeOfDecode
  intro w
  have immFlag := BitVec.eq_zero_or_eq_one (fieldImmFlag w)
  have jsrFlag := BitVec.eq_zero_or_eq_one (fieldJsrFlag w)
  rcases opcode_cases (opcode w) with op | op | op | op | op | op | op | op | op | op | op | op | op | op | op | op
  · rw [decode_opBR op]; exact ⟨place_fields_off9 op, rfl⟩
  · rw [decode_opADD op]
    rcases immFlag with flag | flag
    · rw [if_pos flag]; exact ⟨place_fields_register op flag, rfl⟩
    · rw [if_neg (by rw [flag]; decide)]; exact ⟨place_fields_immediate op flag, rfl⟩
  · rw [decode_opLD op]; exact ⟨place_fields_off9 op, rfl⟩
  · rw [decode_opST op]; exact ⟨place_fields_off9 op, rfl⟩
  · rw [decode_opJSR op]
    rcases jsrFlag with flag | flag
    · rw [if_neg (by rw [flag]; decide)]; exact ⟨place_fields_jsrr op flag, rfl⟩
    · rw [if_pos flag]; exact ⟨place_fields_off11 op flag, rfl⟩
  · rw [decode_opAND op]
    rcases immFlag with flag | flag
    · rw [if_pos flag]; exact ⟨place_fields_register op flag, rfl⟩
    · rw [if_neg (by rw [flag]; decide)]; exact ⟨place_fields_immediate op flag, rfl⟩
  · rw [decode_opLDR op]; exact ⟨place_fields_off6 op, rfl⟩
  · rw [decode_opSTR op]; exact ⟨place_fields_off6 op, rfl⟩
  · rw [decode_opRTI op]; exact ⟨place_fields_ignored op, rfl⟩
  · rw [decode_opNOT op]; exact ⟨place_fields_off6 op, rfl⟩
  · rw [decode_opLDI op]; exact ⟨place_fields_off9 op, rfl⟩
  · rw [decode_opSTI op]; exact ⟨place_fields_off9 op, rfl⟩
  · rw [decode_opJMP op]; exact ⟨(encode_decodeJmp w).trans (place_fields_off6 op), wf_decodeJmp w⟩
  · rw [decode_opRES op]; exact ⟨place_fields_ignored op, rfl⟩
  · rw [decode_opLEA op]; exact ⟨place_fields_off9 op, rfl⟩
  · rw [decode_opTRAP op]; exact ⟨(encode_decodeTrap _ _).trans (place_fields_trap op), wf_decodeTrap _ _⟩

theorem encode_decode (w : Word) : encode (decode w) = w := (encodeOfDecode w).1

/-! ## The opcode table, and sample words -/

/-- The opcode-0xF words with a row of their own are those with zero ignored bits and the row's vector. -/
theorem eq_trapWord_iff {w : Word} (isTrap : opcode w = opTRAP) (v : BitVec 8) :
    w = encode (.trap 0#4 v) ↔ field w 8 4 = 0#4 ∧ fieldVect w = v := by
  constructor
  · rintro rfl
    exact ⟨field_encode_trap 0#4 v, fieldVect_encode_trap 0#4 v⟩
  · rintro ⟨ign, vect⟩
    rw [← place_fields_trap isTrap, ign, vect, encode]

theorem decode_opTRAP_by_word {w : Word} (isTrap : opcode w = opTRAP) : decode w =
    if w = encode (.trap 0#4 vecGETC) then .getc else if w = encode (.trap 0#4 vecOUT) then .out
    else if w = encode (.trap 0#4 vecPUTS) then .puts else if w = encode (.trap 0#4 vecIN) then .inp
    else if w = encode (.trap 0#4 vecPUTSP) then .putsp else if w = encode (.trap 0#4 vecHALT) then .halt
    else .trap (field w 8 4) (fieldVect w) := by
  simp only [decode_opTRAP isTrap, decodeTrap, eq_trapWord_iff isTrap]
  by_cases zero : field w 8 4 = 0#4
  · simp only [zero, true_and, if_true]
  · simp only [zero, false_and, if_false]

/-- Settles O1: row by row, the decoder's own case for that opcode and mode bits. -/
theorem decodeReadsOpcodeTable : Obligations.DecodeReadsOpcodeTable := by
  unfold Obligations.DecodeReadsOpcodeTable
  intro w
  refine ⟨fun op flag => ?_, fun op flag => ?_, fun op flag => ?_, fun op flag => ?_, decode_opNOT, decode_opBR,
    fun op notR7 => ?_, fun op isR7 => ?_, fun op flag => ?_, fun op flag => ?_, decode_opLD, decode_opLDI,
    decode_opLDR, decode_opLEA, decode_opST, decode_opSTI, decode_opSTR, decode_opTRAP_by_word, decode_opRES,
    decode_opRTI⟩
  · rw [decode_opADD op, if_pos flag]
  · rw [decode_opADD op, fieldImmFlag, flag, if_neg (by decide)]
  · rw [decode_opAND op, if_pos flag]
  · rw [decode_opAND op, fieldImmFlag, flag, if_neg (by decide)]
  · rw [decode_opJMP op, decodeJmp, if_neg notR7]
  · rw [decode_opJMP op, decodeJmp, if_pos isR7]
  · rw [decode_opJSR op, if_pos flag]
  · rw [decode_opJSR op, fieldJsrFlag, flag, if_neg (by decide)]

/-- Settles O5: ten closed words, run through the decoder. -/
theorem decodeSampleWords : Obligations.DecodeSampleWords := by
  unfold Obligations.DecodeSampleWords
  decide

end Sys2Proof
end

section
/-! Registers, memory and the keyboard bridge (10_state.md R31, 20_memory.md R65 to R67). -/

namespace Sys2Proof.Machine

/-- Settles O8: the state's own law of read after write, and a write is an update of the register file alone. -/
theorem registerFileReadAfterWrite : Obligations.RegisterFileReadAfterWrite := by
  unfold Obligations.RegisterFileReadAfterWrite
  exact fun s r r' v => ⟨s.reg_setReg r r' v, rfl⟩

/-- Settles O10: the memory's own law of read after write, and a write is an update of memory alone. -/
theorem plainWrite : Obligations.PlainWrite := by
  unfold Obligations.PlainWrite
  exact fun s a v canonical => ⟨fun b => s.plainRead_memWrite canonical a b v, rfl⟩

/-! ## Canonical memory is extensional (20_memory.md R60) -/

namespace Memory

variable {c : Cell} {m : Memory}

theorem wf_tail (h : wf (c :: m)) : m.wf :=
  ⟨(List.pairwise_cons.mp h.1).2, fun d listed => h.2 d (List.mem_cons_of_mem c listed)⟩

@[simp] theorem read_head : read (c :: m) c.1 = c.2 := if_pos rfl

/-- What stands after the first cell of a canonical memory is read there only above the first cell's address. -/
theorem read_tail (h : wf (c :: m)) (a : Nat) : m.read a = if a ≤ c.1 then unlisted else read (c :: m) a := by
  split
  case isTrue below =>
    exact read_of_lt_keys fun d listed => Nat.lt_of_le_of_lt below ((List.pairwise_cons.mp h.1).1 d listed)
  case isFalse above =>
    have other : c.1 ≠ a := fun same => above same.ge
    exact (if_neg other).symm

/-- A canonical memory that starts with a cell lists no address below it. -/
theorem read_below_head (h : wf (c :: m)) {a : Nat} (below : a < c.1) : read (c :: m) a = unlisted := by
  have other : c.1 ≠ a := below.ne'
  rw [read, if_neg other, read_tail h a, if_pos below.le]

theorem head_listed (h : wf (c :: m)) : c.1 < memWords ∧ c.2 ≠ unlisted := h.2 c List.mem_cons_self

/-- Of two canonical memories that read alike, neither starts below the other. -/
theorem head_not_below {c' : Cell} {m' : Memory} (h : wf (c :: m)) (h' : wf (c' :: m'))
    (alike : ∀ a < memWords, read (c :: m) a = read (c' :: m') a) : ¬ c.1 < c'.1 := fun below => by
  obtain ⟨inMemory, notUnlisted⟩ := head_listed h
  apply notUnlisted
  rw [← read_head (c := c) (m := m), alike c.1 inMemory, read_below_head h' below]

theorem eq_of_wf_of_read_eq {m m' : Memory} (h : m.wf) (h' : m'.wf) (alike : ∀ a < memWords, m.read a = m'.read a) :
    m = m' := by
  induction m generalizing m' with
  | nil =>
    cases m' with
    | nil => rfl
    | cons c' m' =>
      obtain ⟨inMemory, notUnlisted⟩ := head_listed h'
      exact absurd ((alike c'.1 inMemory).trans read_head).symm notUnlisted
  | cons c m ih =>
    obtain ⟨inMemory, notUnlisted⟩ := head_listed h
    cases m' with
    | nil => exact absurd (read_head.symm.trans (alike c.1 inMemory)) notUnlisted
    | cons c' m' =>
      have notBelow := head_not_below h h' alike
      have notAbove := head_not_below h' h fun a ha => (alike a ha).symm
      have address : c.1 = c'.1 := Nat.le_antisymm (Nat.le_of_not_lt notAbove) (Nat.le_of_not_lt notBelow)
      have word : c.2 = c'.2 := by
        have same := alike c.1 inMemory
        rwa [read_head, address, read_head] at same
      have tails : m = m' := ih (wf_tail h) (wf_tail h') fun a ha => by
        rw [read_tail h, read_tail h', alike a ha, address]
      rw [Prod.ext address word, tails]

end Memory

/-- Settles O11: two canonical memories that read alike start with the same cell, and so on down their lists. -/
theorem canonicalMemoryIsExtensional : Obligations.CanonicalMemoryIsExtensional := by
  unfold Obligations.CanonicalMemoryIsExtensional
  exact fun _ _ => Memory.eq_of_wf_of_read_eq

/-! ## The bridge (20_memory.md R66) -/

namespace State

variable (s : State)

/-- A bridged read changes memory, the queue and the characters consumed, and nothing else. -/
theorem afterRead_eq (a : Word) : s.afterRead a =
    { s with mem := (s.afterRead a).mem, input := (s.afterRead a).input, consumed := (s.afterRead a).consumed } := by
  unfold afterRead poll
  split
  · split <;> rfl
  · rfl

theorem poll_plainRead_of_nil (canonical : s.mem.wf) (empty : s.input = []) (b : Word) :
    s.poll.plainRead b = if b = s.params.kbsrAddr then 0x0000#16 else s.plainRead b := by
  rw [poll_nil s empty, plainRead_memWrite s canonical]

theorem poll_plainRead_of_cons (canonical : s.mem.wf) {c : Byte} {rest : List Byte} (queued : s.input = c :: rest)
    (b : Word) : s.poll.plainRead b =
      if b = s.params.kbdrAddr then c.setWidth 16
      else if b = s.params.kbsrAddr then s.params.kbsrReady else s.plainRead b := by
  rw [poll_cons s queued]
  show ((s.memWrite _ _).memWrite _ _).plainRead b = _
  rw [plainRead_memWrite _ (memWrite_wf s canonical _ _), plainRead_memWrite s canonical]

end State

/-- Settles O9: elsewhere the bridge is a plain read; at KBSR_ADDR it is a poll, with and without a character. -/
theorem bridgedRead : Obligations.BridgedRead := by
  unfold Obligations.BridgedRead
  refine fun s canonical legal => ⟨fun a plain => ⟨s.memRead_plain plain, s.afterRead_plain plain⟩, ?_, ?_⟩
  · rintro _ rfl empty
    rw [s.memRead_kbsr canonical legal, if_pos empty, s.afterRead_kbsr]
    exact ⟨rfl, s.poll_plainRead_of_nil canonical empty, by rw [s.poll_nil empty]; rfl⟩
  · rintro _ c rest rfl queued
    rw [s.memRead_kbsr canonical legal, if_neg (by rw [queued]; exact List.cons_ne_nil c rest), s.afterRead_kbsr]
    exact ⟨rfl, s.poll_plainRead_of_cons canonical queued, by rw [s.poll_cons queued]; rfl⟩

end Sys2Proof.Machine
end

section
/-! The cycle (40_cycle.md R121, R122, R125): the four things a step can be, the fetch, and the word placed for it. -/

namespace Sys2Proof.Machine

/-! ## The order of a step (40_cycle.md R121) -/

theorem step_of_ended {s : State} (ended : s.status ≠ .running) : step s = .fault .runEnded := by
  unfold step
  cases status : s.status with
  | running => exact absurd status ended
  | halted | faulted | interrupted => rfl

theorem step_of_stopRequest {s : State} (running : s.status = .running) (pending : s.stopRequest = true) :
    step s = .next s.takeStop := by
  simp only [step, running, pending, if_true]

theorem step_of_wait {s : State} (running : s.status = .running) (noStop : s.stopRequest = false)
    (waiting : s.wait ≠ .none) : step s = completeInputWait s := by
  simp only [step, running, noStop]
  cases wait : s.wait with
  | none => exact absurd wait waiting
  | getcWait | inWait => rfl

theorem step_of_fetches {s : State} (h : s.Fetches) : step s = exec (decode s.fetchWord) s.afterFetch := by
  obtain ⟨running, noStop, noWait⟩ := h
  exact step_of_fetch running noStop noWait

/-- Settles O13: one equation for each of the four, in the order in which the step tests for them. -/
theorem stepOrder : Obligations.StepOrder := by
  unfold Obligations.StepOrder
  exact fun s => ⟨step_of_ended, step_of_stopRequest, step_of_wait,
    fun running noStop noWait => step_of_fetches ⟨running, noStop, noWait⟩⟩

/-! ## The fetch (40_cycle.md R122) -/

theorem step_of_plain_fetch {s : State} (h : s.Fetches) (plain : s.pc ≠ s.params.kbsrAddr) :
    step s = exec (decode (s.plainRead s.pc)) { s with pc := s.pc + 1 } := by
  rw [step_of_fetches h, State.fetchWord, s.memRead_plain plain, State.afterFetch, s.afterRead_plain plain]
  rfl

/-- Settles O12: the bridge of the fetch is a plain read, or a poll whose KBSR is then read. -/
theorem stepRunsDecodedInstruction : Obligations.StepRunsDecodedInstruction := by
  unfold Obligations.StepRunsDecodedInstruction
  refine fun s h => ⟨step_of_plain_fetch h, fun atKbsr => ?_⟩
  have polled : s.afterRead s.pc = s.poll := if_pos atKbsr
  rw [step_of_fetches h, State.fetchWord, State.memRead, State.afterFetch, polled]
  rfl

/-! ## The placed word (log entry 4) -/

theorem State.placePc_ne_kbsrAddr (s : State) : s.placePc ≠ s.params.kbsrAddr := by
  unfold placePc
  split
  case isTrue atKbsr => rw [← atKbsr]; bv_omega
  case isFalse plain => exact plain

theorem State.plainRead_withFetchWord (s : State) (canonical : s.mem.wf) (nbits w : Nat) :
    (s.withFetchWord nbits w).plainRead (s.withFetchWord nbits w).pc = BitVec.ofNat 16 (w % 2 ^ nbits) :=
  (s.plainRead_memWrite canonical s.placePc s.placePc _).trans (if_pos rfl)

theorem decodeTableWord_eq_some {nbits w : Nat} (width : nbits ≤ 16) (fits : w < 2 ^ nbits) :
    decodeTableWord nbits w = some (decode (BitVec.ofNat 16 w)) := by
  rw [decodeTableWord, decodeBits, if_pos ⟨width, fits⟩]

/-- Settles O15: the placed word is read back by a plain fetch, as it never stands at KBSR_ADDR. -/
theorem placedWordRuns : Obligations.PlacedWordRuns := by
  unfold Obligations.PlacedWordRuns
  intro s nbits w canonical width fits
  refine ⟨_, decodeTableWord_eq_some width fits, ?_⟩
  have fetches : (s.withFetchWord nbits w).Fetches := ⟨rfl, rfl, rfl⟩
  rw [step_of_plain_fetch fetches s.placePc_ne_kbsrAddr, s.plainRead_withFetchWord canonical, Nat.mod_eq_of_lt fits]

end Sys2Proof.Machine
end

section
/-! What an instruction may touch: the effect of its bridged reads, and one frame lemma for each part of the state. -/

namespace Sys2Proof.Machine

/-! ## Bridged reads in order (20_memory.md R66, R68) -/

namespace State

variable (s : State)

/-- What bridged reads of the given addresses leave, made in order. -/
def afterReads (addresses : List Word) : State := addresses.foldl afterRead s

@[simp] theorem afterReads_nil : s.afterReads [] = s := rfl
@[simp] theorem afterReads_cons (a : Word) (as : List Word) :
    s.afterReads (a :: as) = (s.afterRead a).afterReads as := rfl

theorem afterReads_eq (as : List Word) : s.afterReads as =
    { s with
      mem := (s.afterReads as).mem, input := (s.afterReads as).input, consumed := (s.afterReads as).consumed } := by
  induction as generalizing s with
  | nil => rfl
  | cons a as ih =>
    rw [afterReads_cons, ih, s.afterRead_eq a]

/-- Reads none of which is of KBSR_ADDR do not poll. -/
theorem afterReads_of_no_poll {as : List Word} (noPoll : s.params.kbsrAddr ∉ as) : s.afterReads as = s := by
  induction as with
  | nil => rfl
  | cons a as ih =>
    have plain := s.afterRead_plain (List.ne_of_not_mem_cons noPoll).symm
    rw [afterReads_cons, plain, ih (List.not_mem_of_not_mem_cons noPoll)]

theorem afterReads_wf (canonical : s.mem.wf) (as : List Word) : (s.afterReads as).mem.wf := by
  induction as generalizing s with
  | nil => exact canonical
  | cons a as ih => exact ih _ (s.afterRead_wf canonical a)

/-- Bridged reads change no word but, if one of them polls, the two keyboard words. -/
theorem afterReads_plainRead (canonical : s.mem.wf) {as : List Word} {b : Word}
    (other : s.params.kbsrAddr ∈ as → b ≠ s.params.kbsrAddr ∧ b ≠ s.params.kbdrAddr) :
    (s.afterReads as).plainRead b = s.plainRead b := by
  by_cases polls : s.params.kbsrAddr ∈ as
  · obtain ⟨notKbsr, notKbdr⟩ := other polls
    clear polls other
    induction as generalizing s with
    | nil => rfl
    | cons a as ih =>
      rw [afterReads_cons, ih _ (s.afterRead_wf canonical a) (by simpa using notKbsr) (by simpa using notKbdr),
        s.afterRead_plainRead_other canonical a notKbsr notKbdr]
  · rw [s.afterReads_of_no_poll polls]

/-! ### What a load leaves besides its result -/

theorem loadFrom_mem (dr : RegIdx) (ea : Word) : (s.loadFrom dr ea).mem = (s.afterRead ea).mem := rfl
theorem loadFrom_pc (dr : RegIdx) (ea : Word) : (s.loadFrom dr ea).pc = s.pc := s.afterRead_pc ea
theorem loadFrom_status (dr : RegIdx) (ea : Word) : (s.loadFrom dr ea).status = s.status := s.afterRead_status ea

/-! ## Characters taken from the queue (40_cycle.md R120, R127) -/

/-- From `s` to `t` at most `n` characters left the front of the queue, and all of them were consumed. -/
def Takes (n : Nat) (s t : State) : Prop :=
  ∃ cs, s.input = cs ++ t.input ∧ t.consumed = s.consumed ++ cs ∧ cs.length ≤ n

theorem Takes.none {s t : State} (input : t.input = s.input) (consumed : t.consumed = s.consumed) : Takes 0 s t :=
  ⟨[], input.symm, by rw [consumed, List.append_nil], Nat.le_refl 0⟩

theorem Takes.trans {m n : Nat} {s t u : State} : Takes m s t → Takes n t u → Takes (m + n) s u := by
  rintro ⟨cs, input, consumed, few⟩ ⟨ds, input', consumed', few'⟩
  refine ⟨cs ++ ds, ?_, ?_, ?_⟩
  · rw [input, input', List.append_assoc]
  · rw [consumed', consumed, List.append_assoc]
  · rw [List.length_append]; omega

theorem Takes.mono {m n : Nat} {s t : State} (h : Takes m s t) (le : m ≤ n) : Takes n s t := by
  obtain ⟨cs, input, consumed, few⟩ := h
  exact ⟨cs, input, consumed, few.trans le⟩

theorem takes_afterRead (a : Word) : Takes 1 s (s.afterRead a) := by
  rw [Takes, afterRead_input, afterRead_consumed]
  split
  · exact ⟨s.input.take 1, by rw [← List.drop_one, List.take_append_drop], rfl, List.length_take_le 1 _⟩
  · exact ⟨[], rfl, rfl, Nat.zero_le 1⟩

theorem takes_afterReads (as : List Word) : Takes as.length s (s.afterReads as) := by
  induction as generalizing s with
  | nil => exact .none rfl rfl
  | cons a as ih => exact ((s.takes_afterRead a).trans (ih _)).mono (Nat.add_comm _ _).le

end State

/-! ## The trap dispatcher's frame (45_trap.md R220 to R238) -/

/-- R7's link apart, a trap changes the output, STATUS and WAIT, and nothing else. -/
theorem trapDispatch_eq (ir : Word) (v : BitVec 8) (s : State) : trapDispatch ir v s =
    { s.trapLink with
      output := (trapDispatch ir v s).output
      status := (trapDispatch ir v s).status
      wait := (trapDispatch ir v s).wait } := by
  rcases trapDispatch_cases ir v s with ⟨-, e⟩ | ⟨-, e⟩ | ⟨-, e⟩ | ⟨-, _, e⟩ | ⟨-, -, -, _, e⟩ <;> rw [e]

@[simp] theorem trapDispatch_mem (ir : Word) (v : BitVec 8) (s : State) : (trapDispatch ir v s).mem = s.mem := by
  rw [trapDispatch_eq]; exact s.trapLink_mem
@[simp] theorem trapDispatch_regs (ir : Word) (v : BitVec 8) (s : State) :
    (trapDispatch ir v s).regs = s.trapLink.regs := by
  rw [trapDispatch_eq]
@[simp] theorem trapDispatch_pc (ir : Word) (v : BitVec 8) (s : State) : (trapDispatch ir v s).pc = s.pc := by
  rw [trapDispatch_eq]; exact s.trapLink_pc
@[simp] theorem trapDispatch_stopRequest (ir : Word) (v : BitVec 8) (s : State) :
    (trapDispatch ir v s).stopRequest = s.stopRequest := by
  rw [trapDispatch_eq]; exact s.trapLink_stopRequest
@[simp] theorem trapDispatch_params (ir : Word) (v : BitVec 8) (s : State) :
    (trapDispatch ir v s).params = s.params := by
  rw [trapDispatch_eq]; exact s.trapLink_params

theorem trapDispatch_output (ir : Word) (v : BitVec 8) (s : State) :
    ∃ cs, (trapDispatch ir v s).output = s.output ++ cs := by
  rcases trapDispatch_cases ir v s with ⟨-, e⟩ | ⟨-, e⟩ | ⟨-, e⟩ | ⟨-, cs, e⟩ | ⟨-, -, -, cs, e⟩ <;> rw [e]
  · exact ⟨[], by rw [List.append_nil]; exact s.trapLink_output⟩
  · exact ⟨_, rfl⟩
  · exact ⟨_, rfl⟩
  · exact ⟨_, rfl⟩
  · exact ⟨_, rfl⟩

/-- Only GETC and IN set WAIT (45_trap.md R222, R229). -/
theorem trapDispatch_wait (ir : Word) (v : BitVec 8) (s : State) : (trapDispatch ir v s).wait =
    if v = 0x20#8 then .getcWait else if v = 0x23#8 then .inWait else s.wait := by
  rcases trapDispatch_cases ir v s with
    ⟨hv, e⟩ | ⟨hv, e⟩ | ⟨hv, e⟩ | ⟨hv | hv, _, e⟩ | ⟨notGetc, notIn, -, _, e⟩ <;> rw [e]
  · rw [if_pos hv]
  · simp [hv]
  · simp [hv]
  · simp [hv]
  · simp [hv]
  · rw [if_neg notGetc, if_neg notIn]; exact s.trapLink_wait

/-- Only HALT and an overrunning scan change STATUS (45_trap.md R234, R236). -/
theorem trapDispatch_status (ir : Word) (v : BitVec 8) (s : State) :
    (trapDispatch ir v s).status = s.status ∨
    ((trapDispatch ir v s).status = .halted ∧ v = 0x25#8) ∨
    ((trapDispatch ir v s).status = .faulted { kind := .trapScanOverrun, address := s.pc - 1, word := ir } ∧
      (v = 0x22#8 ∨ v = 0x24#8)) := by
  rcases trapDispatch_cases ir v s with ⟨-, e⟩ | ⟨-, e⟩ | ⟨hv, e⟩ | ⟨hv, _, e⟩ | ⟨-, -, -, _, e⟩ <;> rw [e]
  · exact .inl s.trapLink_status
  · exact .inl s.trapLink_status
  · exact .inr (.inl ⟨rfl, hv⟩)
  · exact .inr (.inr ⟨rfl, hv⟩)
  · exact .inl s.trapLink_status

/-! ## Every instruction -/

theorem exec_total (i : Instr) (s : State) : ∃ t, exec i s = .next t := by
  rcases exec_shape i s with ⟨v, hv⟩ | ⟨-, hs⟩
  · exact ⟨_, (exec_of_isTrapAt hv s).1⟩
  · cases hs with
    | result _ _ _ _ _ _ _ run | load _ _ _ _ _ _ _ run | loadIndirect _ _ _ run | jump _ _ _ _ _ run
    | call _ _ _ _ _ _ run | store _ _ _ _ _ _ run | storeIndirect _ _ _ run | res _ _ run | rti _ _ run =>
      exact ⟨_, run⟩

theorem isTrap_of_isTrapAt {i : Instr} {v : BitVec 8} (h : i.isTrapAt v) : i.isTrap = true :=
  (exec_of_isTrapAt h State.reset).2

theorem not_isTrap_eq_false {i : Instr} {v : BitVec 8} (h : i.isTrapAt v) : ¬ i.isTrap = false := by
  rw [isTrap_of_isTrapAt h]
  exact Bool.noConfusion

/-- A trap's next state is its dispatcher's. -/
theorem eq_trapDispatch {i : Instr} {v : BitVec 8} {s t : State} (hv : i.isTrapAt v) (h : exec i s = .next t) :
    t = trapDispatch (encode i) v s :=
  Host.Outcome.next.inj (h.symm.trans (exec_of_isTrapAt hv s).1)

/-- What the tables of the frame say of every trap. -/
theorem tables_of_isTrapAt {i : Instr} {v : BitVec 8} (h : i.isTrapAt v) (s : State) :
    i.bridgedReads s = [] ∧ i.storeAddr s = none ∧ i.writesPc = false ∧
    (i.gprWrites s.params = if s.params.trapLinksR7 then [7] else []) ∧ i.opcodeNumber = opTRAP := by
  have isTrap := isTrap_of_isTrapAt h
  cases i with
  | trap | getc | out | puts | inp | putsp | halt => exact ⟨rfl, rfl, rfl, rfl, rfl⟩
  | _ => exact absurd isTrap Bool.false_ne_true

/-- An instruction that is no trap changes, besides what its bridged reads do, memory, the registers, PC, COND and
STATUS, and nothing else. -/
theorem exec_eq_of_not_isTrap {i : Instr} {s t : State} (h : exec i s = .next t) (notTrap : i.isTrap = false) :
    t = { s.afterReads (i.bridgedReads s) with
      mem := t.mem, regs := t.regs, pc := t.pc, cond := t.cond, status := t.status } := by
  rcases exec_shape i s with ⟨v, hv⟩ | ⟨-, hs⟩
  · exact absurd notTrap (not_isTrap_eq_false hv)
  · cases hs with
    | result _ _ _ _ reads _ _ run | load _ _ _ _ reads _ _ run | jump _ _ _ reads _ run | call _ _ _ reads _ _ run
    | store _ _ _ _ reads _ run =>
      obtain rfl := Host.Outcome.next.inj (run.symm.trans h)
      rw [reads]
      rfl
    | loadIndirect dr off9 eq run =>
      obtain rfl := Host.Outcome.next.inj (run.symm.trans h)
      rw [State.loadFrom_eq, eq, Instr.bridgedReads, State.afterReads_cons, State.afterReads_cons, State.afterReads_nil]
    | storeIndirect _ _ eq run | res _ eq run | rti _ eq run =>
      obtain rfl := Host.Outcome.next.inj (run.symm.trans h)
      rw [eq]
      rfl

section
variable {i : Instr} {s t : State} (h : exec i s = .next t)
include h

theorem exec_wait_of_not_isTrap (notTrap : i.isTrap = false) : t.wait = s.wait := by
  rw [exec_eq_of_not_isTrap h notTrap, State.afterReads_eq]

theorem exec_output_of_not_isTrap (notTrap : i.isTrap = false) : t.output = s.output := by
  rw [exec_eq_of_not_isTrap h notTrap, State.afterReads_eq]

theorem exec_stopRequest : t.stopRequest = s.stopRequest := by
  rcases exec_shape i s with ⟨v, hv⟩ | ⟨notTrap, -⟩
  · rw [eq_trapDispatch hv h, trapDispatch_stopRequest]
  · rw [exec_eq_of_not_isTrap h notTrap, State.afterReads_eq]

theorem exec_params : t.params = s.params := by
  rcases exec_shape i s with ⟨v, hv⟩ | ⟨notTrap, -⟩
  · rw [eq_trapDispatch hv h, trapDispatch_params]
  · rw [exec_eq_of_not_isTrap h notTrap, State.afterReads_eq]

theorem exec_output : ∃ cs, t.output = s.output ++ cs := by
  rcases exec_shape i s with ⟨v, hv⟩ | ⟨notTrap, -⟩
  · rw [eq_trapDispatch hv h]
    exact trapDispatch_output _ v s
  · exact ⟨[], by rw [exec_output_of_not_isTrap h notTrap, List.append_nil]⟩

/-- What an instruction takes from the queue and adds to the characters consumed, its bridged reads take. -/
theorem exec_input : t.input = (s.afterReads (i.bridgedReads s)).input ∧
    t.consumed = (s.afterReads (i.bridgedReads s)).consumed := by
  rcases exec_shape i s with ⟨v, hv⟩ | ⟨notTrap, -⟩
  · obtain ⟨reads, -⟩ := tables_of_isTrapAt hv s
    rw [eq_trapDispatch hv h, reads]
    exact trapDispatch_input _ v s
  · rw [exec_eq_of_not_isTrap h notTrap]
    exact ⟨rfl, rfl⟩

/-- Memory is what the bridged reads leave, with one word written to it by a store. -/
theorem exec_mem : ∃ v, t.mem = (i.storeAddr s).elim (s.afterReads (i.bridgedReads s)).mem
    fun a => (s.afterReads (i.bridgedReads s)).mem.write a.toNat v := by
  rcases exec_shape i s with ⟨v, hv⟩ | ⟨-, hs⟩
  · obtain ⟨reads, store, -⟩ := tables_of_isTrapAt hv s
    rw [eq_trapDispatch hv h, trapDispatch_mem, store, reads]
    exact ⟨0, rfl⟩
  · cases hs with
    | result _ _ _ store reads _ _ run | load _ _ _ store reads _ _ run | jump _ _ store reads _ run
    | call _ _ store reads _ _ run =>
      obtain rfl := Host.Outcome.next.inj (run.symm.trans h)
      rw [store, reads]
      exact ⟨0, rfl⟩
    | store ea v _ store reads _ run =>
      obtain rfl := Host.Outcome.next.inj (run.symm.trans h)
      rw [store, reads]
      exact ⟨v, rfl⟩
    | loadIndirect _ _ eq run =>
      obtain rfl := Host.Outcome.next.inj (run.symm.trans h)
      rw [State.loadFrom_mem, eq]
      exact ⟨0, rfl⟩
    | res _ eq run | rti _ eq run =>
      obtain rfl := Host.Outcome.next.inj (run.symm.trans h)
      rw [eq]
      exact ⟨0, rfl⟩
    | storeIndirect sr _ eq run =>
      obtain rfl := Host.Outcome.next.inj (run.symm.trans h)
      rw [eq]
      exact ⟨s.reg sr, rfl⟩

theorem exec_pc (keepsPc : i.writesPc = false) : t.pc = s.pc := by
  rcases exec_shape i s with ⟨v, hv⟩ | ⟨-, hs⟩
  · rw [eq_trapDispatch hv h, trapDispatch_pc]
  · cases hs with
    | jump _ _ _ _ pc run | call _ _ _ _ pc _ run => exact Bool.noConfusion (pc.symm.trans keepsPc)
    | result _ _ _ _ _ _ _ run | store _ _ _ _ _ _ run | res _ _ run | rti _ _ run =>
      obtain rfl := Host.Outcome.next.inj (run.symm.trans h)
      rfl
    | load _ _ _ _ _ _ _ run =>
      obtain rfl := Host.Outcome.next.inj (run.symm.trans h)
      rw [State.loadFrom_pc]
    | loadIndirect _ _ _ run =>
      obtain rfl := Host.Outcome.next.inj (run.symm.trans h)
      rw [State.loadFrom_pc, State.afterRead_pc]
    | storeIndirect _ _ _ run =>
      obtain rfl := Host.Outcome.next.inj (run.symm.trans h)
      rw [State.memWrite_pc, State.afterRead_pc]

theorem exec_reg {r : RegIdx} (unwritten : r ∉ i.gprWrites s.params) : t.reg r = s.reg r := by
  rcases exec_shape i s with ⟨v, hv⟩ | ⟨-, hs⟩
  · obtain ⟨-, -, -, gpr, -⟩ := tables_of_isTrapAt hv s
    have notLinked : ¬ (s.params.trapLinksR7 = true ∧ r = 7) := fun ⟨links, isR7⟩ => unwritten (by
      rw [gpr, links, isR7]; decide)
    rw [eq_trapDispatch hv h, State.reg_congr (trapDispatch_regs _ v s), s.trapLink_reg, if_neg notLinked]
  · cases hs with
    | result dr v _ _ _ _ gpr run =>
      obtain rfl := Host.Outcome.next.inj (run.symm.trans h)
      have other : r ≠ dr := by simpa [gpr] using unwritten
      rw [s.setResult_reg, if_neg other]
    | load dr ea _ _ _ _ gpr run =>
      obtain rfl := Host.Outcome.next.inj (run.symm.trans h)
      have other : r ≠ dr := by simpa [gpr] using unwritten
      rw [State.loadFrom, State.setResult_reg, if_neg other, s.afterRead_reg]
    | loadIndirect dr off9 eq run =>
      obtain rfl := Host.Outcome.next.inj (run.symm.trans h)
      have other : r ≠ dr := by simpa [eq, Instr.gprWrites] using unwritten
      rw [State.loadFrom, State.setResult_reg, if_neg other, State.afterRead_reg, s.afterRead_reg]
    | call target _ _ _ _ gpr run =>
      obtain rfl := Host.Outcome.next.inj (run.symm.trans h)
      have other : r ≠ 7 := by simpa [gpr] using unwritten
      rw [State.setPc_reg, s.reg_setReg_other _ other]
    | jump _ _ _ _ _ run | store _ _ _ _ _ _ run | res _ _ run | rti _ _ run =>
      obtain rfl := Host.Outcome.next.inj (run.symm.trans h)
      rfl
    | storeIndirect _ _ _ run =>
      obtain rfl := Host.Outcome.next.inj (run.symm.trans h)
      rw [State.memWrite_reg, s.afterRead_reg]

end

/-- The instructions that raise a fault of the given kind (60_exceptions.md R271). -/
def Raises (i : Instr) : FaultKind → Prop
  | .reservedOpcode => ∃ ign, i = .res ign
  | .unimplementedRTI => ∃ ign, i = .rti ign
  | .trapScanOverrun => i.isTrapAt 0x22#8 ∨ i.isTrapAt 0x24#8

/-- STATUS changes by a HALT, or by an instruction that raises a fault and is recorded with its own address and word
(10_state.md R38, R39). -/
theorem exec_status {i : Instr} {s t : State} (h : exec i s = .next t) :
    t.status = s.status ∨ (t.status = .halted ∧ i.isTrapAt 0x25#8) ∨
    ∃ kind, t.status = .faulted { kind := kind, address := s.pc - 1, word := encode i } ∧ Raises i kind := by
  rcases exec_shape i s with ⟨v, hv⟩ | ⟨-, hs⟩
  · rw [eq_trapDispatch hv h]
    rcases trapDispatch_status (encode i) v s with same | ⟨halted, rfl⟩ | ⟨faulted, rfl | rfl⟩
    · exact .inl same
    · exact .inr (.inl ⟨halted, hv⟩)
    · exact .inr (.inr ⟨.trapScanOverrun, faulted, Or.inl hv⟩)
    · exact .inr (.inr ⟨.trapScanOverrun, faulted, Or.inr hv⟩)
  · cases hs with
    | result _ _ _ _ _ _ _ run | jump _ _ _ _ _ run | call _ _ _ _ _ _ run | store _ _ _ _ _ _ run =>
      obtain rfl := Host.Outcome.next.inj (run.symm.trans h)
      exact .inl rfl
    | load _ _ _ _ _ _ _ run =>
      obtain rfl := Host.Outcome.next.inj (run.symm.trans h)
      exact .inl (s.loadFrom_status _ _)
    | loadIndirect _ _ _ run =>
      obtain rfl := Host.Outcome.next.inj (run.symm.trans h)
      rw [State.loadFrom_status, State.afterRead_status]
      exact .inl rfl
    | storeIndirect _ _ _ run =>
      obtain rfl := Host.Outcome.next.inj (run.symm.trans h)
      rw [State.memWrite_status, State.afterRead_status]
      exact .inl rfl
    | res ign eq run =>
      obtain rfl := Host.Outcome.next.inj (run.symm.trans h)
      exact .inr (.inr ⟨.reservedOpcode, rfl, ign, eq⟩)
    | rti ign eq run =>
      obtain rfl := Host.Outcome.next.inj (run.symm.trans h)
      exact .inr (.inr ⟨.unimplementedRTI, rfl, ign, eq⟩)

end Sys2Proof.Machine
end

section
/-! What instructions and steps may touch (10_state.md sections 2 to 6, 20_memory.md R60, R71). -/

namespace Sys2Proof.Machine

/-- Settles O45: every shape of an instruction answers a next state, and a fetching step is an instruction. -/
theorem everyInstructionCompletes : Obligations.EveryInstructionCompletes := by
  unfold Obligations.EveryInstructionCompletes
  refine ⟨exec_total, fun s fetches => ?_⟩
  rw [step_of_fetches fetches]
  exact exec_total _ _

/-! ## Steps that do not fetch -/

/-- A step with a stop request pending takes it. -/
theorem step_eq_takeStop {s t : State} (h : step s = .next t) (pending : s.stopRequest = true) : t = s.takeStop := by
  obtain ⟨running, -⟩ := step_cases h
  exact Host.Outcome.next.inj (h.symm.trans (step_of_stopRequest running pending))

/-- Settles O47: the registers an instruction writes are its only ones, the input wait writes R0, a stop nothing. -/
theorem registerFrame : Obligations.RegisterFrame := by
  unfold Obligations.RegisterFrame
  refine ⟨fun i s t h r => exec_reg h, fun s t h r notR0 => ?_, fun s t h pending r => ?_⟩
  · obtain ⟨c, rest, -, rfl⟩ := completeInputWait_eq_next h
    exact State.reg_setReg_other _ _ notR0
  · rw [step_eq_takeStop h pending, s.takeStop_reg]

/-- Settles O49: the instructions' own frame, and the two kinds of step that do not fetch. -/
theorem pcFrame : Obligations.PcFrame := by
  unfold Obligations.PcFrame
  refine ⟨fun i s t h => exec_pc h, fun s t h notFetch => ?_⟩
  obtain ⟨running, ⟨-, rfl⟩ | ⟨-, -, c, rest, -, rfl⟩ | ⟨noStop, noWait, -⟩⟩ := step_cases h
  · exact s.takeStop_pc
  · exact s.inputArrived_pc c rest
  · exact absurd ⟨running, noStop, noWait⟩ notFetch

/-! ## Memory (20_memory.md R60, R71) -/

/-- Settles O50: memory is what the bridged reads leave, but for the one word of a store. -/
theorem memoryFrame : Obligations.MemoryFrame := by
  unfold Obligations.MemoryFrame
  intro i s t canonical h
  obtain ⟨v, mem⟩ := exec_mem h
  refine ⟨fun b notStored notPolled => ?_, fun noStore noPoll => ?_⟩
  · refine Eq.trans ?_ (s.afterReads_plainRead canonical notPolled)
    cases store : i.storeAddr s with
    | none =>
      rw [store] at mem
      exact congrArg (·.read b.toNat) mem
    | some a =>
      rw [store] at mem notStored
      have other : b ≠ a := fun same => notStored (congrArg some same.symm)
      have written := State.plainRead_memWrite _ (s.afterReads_wf canonical (i.bridgedReads s)) a b v
      rw [if_neg other] at written
      exact (congrArg (·.read b.toNat) mem).trans written
  · rw [mem, noStore, s.afterReads_of_no_poll noPoll]
    rfl

/-! ## Input and output (40_cycle.md R120) -/

theorem exec_input_of_no_poll {i : Instr} {s t : State} (h : exec i s = .next t) (noPoll : ¬ i.polls s) :
    t.input = s.input ∧ t.consumed = s.consumed := by
  have taken := exec_input h
  rwa [s.afterReads_of_no_poll noPoll] at taken

theorem bridgedReads_length_le (i : Instr) (s : State) : (i.bridgedReads s).length ≤ 2 := by
  cases i <;> simp [Instr.bridgedReads]

theorem exec_takes {i : Instr} {s t : State} (h : exec i s = .next t) : State.Takes 2 s t := by
  obtain ⟨cs, input, consumed, few⟩ := s.takes_afterReads (i.bridgedReads s)
  obtain ⟨sameInput, sameConsumed⟩ := exec_input h
  exact ⟨cs, by rw [sameInput, input], by rw [sameConsumed, consumed], few.trans (bridgedReads_length_le i s)⟩

/-- A fetch takes at most the one character that its poll does. -/
theorem State.takes_afterFetch (s : State) : State.Takes 1 s s.afterFetch := s.takes_afterRead s.pc

theorem step_takes {s t : State} (h : step s = .next t) : State.Takes 3 s t := by
  obtain ⟨-, ⟨-, rfl⟩ | ⟨-, -, c, rest, queued, rfl⟩ | ⟨-, -, run⟩⟩ := step_cases h
  · exact (State.Takes.none rfl rfl).mono (by decide)
  · exact ⟨[c], queued, rfl, by simp⟩
  · exact s.takes_afterFetch.trans (exec_takes run)

/-- Settles O51: bridged reads and the input wait take from the front, a fetch one character, an instruction two. -/
theorem inputTakenOnlyByPollOrWait : Obligations.InputTakenOnlyByPollOrWait := by
  unfold Obligations.InputTakenOnlyByPollOrWait
  refine ⟨fun i s t h => exec_input_of_no_poll h, fun s t h => step_takes h, fun s t h fetches plain noPoll => ?_⟩
  rw [step_of_fetches fetches] at h
  have sameFetch : s.afterRead s.pc = s := s.afterRead_plain plain
  have taken := exec_input_of_no_poll h noPoll
  rwa [s.afterFetch_input, s.afterFetch_consumed, sameFetch] at taken

/-- Settles O52: the traps append, the completion of IN may append its echo, and nothing else writes. -/
theorem outputFrame : Obligations.OutputFrame := by
  unfold Obligations.OutputFrame
  refine ⟨fun i s t h => exec_output_of_not_isTrap h, fun s t h => ?_⟩
  obtain ⟨-, ⟨-, rfl⟩ | ⟨-, -, c, rest, -, rfl⟩ | ⟨-, -, run⟩⟩ := step_cases h
  · exact ⟨[], (List.append_nil _).symm⟩
  · exact ⟨_, s.inputArrived_output c rest⟩
  · rw [← s.afterFetch_output]
    exact exec_output run

/-! ## The run state (10_state.md R38, R44; 00_scope.md R10) -/

/-- An instruction that raises a fault is a trap, RES or RTI. -/
theorem not_raises {i : Instr} (notTrap : i.isTrap = false) (notRes : ∀ x, i ≠ .res x) (notRti : ∀ x, i ≠ .rti x) :
    ∀ kind, ¬ Raises i kind
  | .reservedOpcode, ⟨x, isRes⟩ => notRes x isRes
  | .unimplementedRTI, ⟨x, isRti⟩ => notRti x isRti
  | .trapScanOverrun, isScan => by
    obtain hv | hv := isScan <;> exact not_isTrap_eq_false hv notTrap

theorem step_params {s t : State} (h : step s = .next t) : t.params = s.params := by
  obtain ⟨-, ⟨-, rfl⟩ | ⟨-, -, c, rest, -, rfl⟩ | ⟨-, -, run⟩⟩ := step_cases h
  · exact s.takeStop_params
  · exact s.inputArrived_params c rest
  · rw [exec_params run, s.afterFetch_params]

/-- Settles O53: the instructions' own frames; STATUS changes only where an instruction halts or raises a fault. -/
theorem runStateFrame : Obligations.RunStateFrame := by
  unfold Obligations.RunStateFrame
  refine ⟨fun i s t h => ⟨exec_params h, exec_stopRequest h⟩, fun i s t h => exec_wait_of_not_isTrap h,
    fun i s t h notTrap notRes notRti => ?_, fun s t h => step_params h⟩
  obtain same | ⟨-, isHalt⟩ | ⟨kind, -, raises⟩ := exec_status h
  · exact same
  · exact absurd notTrap (not_isTrap_eq_false isHalt)
  · exact absurd raises (not_raises notTrap notRes notRti kind)

end Sys2Proof.Machine
end

section
/-! The input wait (40_cycle.md R125), and stores that the next fetch sees (20_memory.md R78). -/

namespace Sys2Proof.Machine

/-! ## The input wait -/

/-- The five fields that an arriving character changes. -/
theorem State.inputArrived_eq (s : State) (c : Byte) (rest : List Byte) : s.inputArrived c rest =
    { s with
      input := rest
      consumed := s.consumed ++ [c]
      output := s.output ++ (if s.wait = .inWait ∧ s.params.inEcho = true then [c] else [])
      regs := s.regs.set 0 (c.setWidth 16)
      wait := .none } := rfl

section
variable {s : State} (running : s.status = .running) (noStop : s.stopRequest = false) (waiting : s.wait ≠ .none)
include running noStop waiting

theorem step_of_wait_nil (empty : s.input = []) : step s = .fault .inputHold := by
  rw [step_of_wait running noStop waiting, completeInputWait, empty]

theorem step_of_wait_cons {c : Byte} {rest : List Byte} (queued : s.input = c :: rest) :
    step s = .next (s.inputArrived c rest) := by
  rw [step_of_wait running noStop waiting, completeInputWait, queued]

end

theorem exec_wait_of_isTrapAt {i : Instr} {v : BitVec 8} {s t : State} (hv : i.isTrapAt v) (h : exec i s = .next t) :
    t.wait = if v = 0x20#8 then .getcWait else if v = 0x23#8 then .inWait else s.wait := by
  rw [eq_trapDispatch hv h, trapDispatch_wait]

/-- Settles O14: the hold, the completion, and WAIT after each instruction by its trap vector, if it has one. -/
theorem inputWait : Obligations.InputWait := by
  unfold Obligations.InputWait
  refine ⟨fun s running noStop waiting => step_of_wait_nil running noStop waiting,
    fun s c rest running noStop waiting => step_of_wait_cons running noStop waiting, fun i s t h notGetc notIn => ?_,
    fun i s t h isGetc => exec_wait_of_isTrapAt isGetc h, fun i s t h isIn => exec_wait_of_isTrapAt isIn h⟩
  rcases exec_shape i s with ⟨v, hv⟩ | ⟨notTrap, -⟩
  · rw [exec_wait_of_isTrapAt hv h, if_neg (by rintro rfl; exact notGetc hv), if_neg (by rintro rfl; exact notIn hv)]
  · exact exec_wait_of_not_isTrap h notTrap

/-! ## Stores and the next fetch -/

theorem State.Fetches.afterRead {s : State} (h : s.Fetches) (a : Word) : (s.afterRead a).Fetches := by
  obtain ⟨running, noStop, noWait⟩ := h
  exact ⟨(s.afterRead_status a).trans running, (s.afterRead_stopRequest a).trans noStop,
    (s.afterRead_wait a).trans noWait⟩

/-- A word written at PC is what the next step runs, unless the fetch polls. -/
theorem step_of_memWrite_pc {u : State} (canonical : u.mem.wf) (h : u.Fetches) (plain : u.pc ≠ u.params.kbsrAddr)
    (v : Word) : step (u.memWrite u.pc v) = exec (decode v) { u.memWrite u.pc v with pc := u.pc + 1 } := by
  have fetches : (u.memWrite u.pc v).Fetches := h
  have read := u.plainRead_memWrite canonical u.pc u.pc v
  rw [if_pos rfl] at read
  rw [step_of_plain_fetch fetches plain, u.memWrite_pc, read]

/-- Settles O16: each store is one plain write, at the PC of the state written to. -/
theorem storeSeenByNextFetch : Obligations.StoreSeenByNextFetch := by
  unfold Obligations.StoreSeenByNextFetch
  rintro i sr s t (⟨off9, rfl⟩ | ⟨off9, rfl⟩ | ⟨base, off6, rfl⟩) canonical fetches h stored plain
  case inl =>
    obtain rfl := Host.Outcome.next.inj ((exec_st sr off9 s).symm.trans h)
    have atPc : s.pcRel off9 = s.pc := Option.some.inj stored
    rw [atPc] at plain ⊢
    exact step_of_memWrite_pc canonical fetches plain _
  case inr.inl =>
    obtain rfl := Host.Outcome.next.inj ((exec_sti sr off9 s).symm.trans h)
    have atPc : s.indirect off9 = (s.afterRead (s.pcRel off9)).pc := Option.some.inj stored
    rw [atPc] at plain ⊢
    exact step_of_memWrite_pc (s.afterRead_wf canonical _) (fetches.afterRead _) plain _
  case inr.inr =>
    obtain rfl := Host.Outcome.next.inj ((exec_str sr base off6 s).symm.trans h)
    have atPc : s.baseRel base off6 = s.pc := Option.some.inj stored
    rw [atPc] at plain ⊢
    exact step_of_memWrite_pc canonical fetches plain _

end Sys2Proof.Machine
end

section
/-! AND (41_operate.md R143) and JSRR (42_control.md R168, R169): the next state from each form and from the word. -/

namespace Sys2Proof.Machine

theorem exec_andReg (dr sr1 : RegIdx) (ign : BitVec 2) (sr2 : RegIdx) (s : State) :
    exec (.andReg dr sr1 ign sr2) s = .next (s.setResult dr (s.reg sr1 &&& s.reg sr2)) := rfl

theorem exec_andImm (dr sr1 : RegIdx) (imm5 : BitVec 5) (s : State) :
    exec (.andImm dr sr1 imm5) s = .next (s.setResult dr (s.reg sr1 &&& sext imm5)) := rfl

theorem exec_decode_opAND {ir : Word} (isAnd : opcode ir = opAND) (s : State) :
    exec (decode ir) s = .next (s.setResult (fieldDR ir) (s.reg (fieldSR1 ir) &&&
      if fieldImmFlag ir = 1#1 then sext (fieldImm5 ir) else s.reg (fieldSR2 ir))) := by
  rw [decode_opAND isAnd]
  rcases BitVec.eq_zero_or_eq_one (fieldImmFlag ir) with flag | flag
  · rw [flag, if_pos rfl, if_neg (by decide), exec_andReg]
  · rw [flag, if_neg (by decide), if_pos rfl, exec_andImm]

/-- Settles O18: each part is one result, whose sources are read in the state before its write. -/
theorem andResult : Obligations.AndResult := by
  unfold Obligations.AndResult
  simp only [← State.setResult_eq]
  exact ⟨fun _ s isAnd => exec_decode_opAND isAnd s, exec_andReg, exec_andImm⟩

/-- With the link first, a base of R7 is read after R7 is written (42_control.md R169). -/
theorem exec_jsrr (ignHi : BitVec 2) (base : RegIdx) (ignLo : BitVec 6) (s : State) :
    exec (.jsrr ignHi base ignLo) s = .next ((s.setReg 7 s.pc).setPc
      (if s.params.jsrrLinkFirst = true ∧ base = 7 then s.pc else s.reg base)) := by
  have target : (if s.params.jsrrLinkFirst then (s.setReg 7 s.pc).reg base else s.reg base) =
      if s.params.jsrrLinkFirst = true ∧ base = 7 then s.pc else s.reg base := by
    rw [s.reg_setReg, ite_and]
  rw [← target]
  rfl

/-- Settles O23: the link is the PC that the fetch left; JSRR_LINK_FIRST decides only what a base of R7 reads. -/
theorem jsrrResult : Obligations.JsrrResult := by
  unfold Obligations.JsrrResult
  refine ⟨fun ir s isJsrr noFlag => ?_, exec_jsrr⟩
  rw [decode_opJSR isJsrr, fieldJsrFlag, noFlag, if_neg (by decide)]
  exact exec_jsrr _ _ _ s

end Sys2Proof.Machine
end

section
/-! The traps (45_trap.md): the dispatcher and its six routines. -/

namespace Sys2Proof.Machine

/-! ## The dispatcher (45_trap.md R220, R221) -/

theorem decodeTrap_isTrapAt (ign : BitVec 4) (v : BitVec 8) : (decodeTrap ign v).isTrapAt v := by
  unfold decodeTrap
  split_ifs <;> simp_all [Instr.isTrapAt]

theorem decode_isTrapAt {w : Word} (isTrap : opcode w = opTRAP) : (decode w).isTrapAt (fieldVect w) := by
  rw [decode_opTRAP isTrap]
  exact decodeTrap_isTrapAt _ _

end Sys2Proof.Machine

namespace Sys2Proof

open Machine in
/-- Settles O31: the dispatcher is the table of routines, and its frame has COND, memory and PC. -/
theorem trapDispatch : Obligations.TrapDispatch := by
  unfold Obligations.TrapDispatch
  refine ⟨fun s => rfl, fun ir s isTrap => decode_isTrapAt isTrap, fun i v s hv => (exec_of_isTrapAt hv s).1,
    fun i v s t hv h => ?_⟩
  rw [eq_trapDispatch hv h]
  exact ⟨trapDispatch_cond _ v s, trapDispatch_mem _ v s, trapDispatch_pc _ v s⟩

end Sys2Proof

namespace Sys2Proof.Machine

/-- No routine but IN's and GETC's completion touches R0, and the link is in R7. -/
theorem State.trapLink_reg_zero (s : State) : s.trapLink.reg 0 = s.reg 0 := by
  rw [s.trapLink_reg, if_neg (by simp)]

/-! ## GETC, OUT, IN, and vectors of no routine -/

/-- Settles O32: GETC's routine sets WAIT; its wait completes without an echo, or holds. -/
theorem getcResult : Obligations.GetcResult := by
  unfold Obligations.GetcResult
  refine ⟨fun i s hv => (exec_of_isTrapAt hv s).1, fun t c rest running noStop isGetc queued => ?_,
    fun t running noStop isGetc empty => step_of_wait_nil running noStop (by rw [isGetc]; exact Wait.noConfusion) empty⟩
  rw [step_of_wait_cons running noStop (by rw [isGetc]; exact Wait.noConfusion) queued, t.inputArrived_eq,
    if_neg (by simp [isGetc]), List.append_nil]

/-- Settles O33: OUT's routine writes R0, which the link has left alone. -/
theorem outResult : Obligations.OutResult := by
  unfold Obligations.OutResult
  intro i s hv
  rw [(exec_of_isTrapAt hv s).1]
  show Host.Outcome.next (trapOut s.trapLink) = _
  rw [trapOut, State.hostWrite, s.trapLink_reg_zero, s.trapLink_output]
  rfl

/-- Settles O35: IN's routine writes the prompt and sets WAIT; its wait completes with the echo. -/
theorem inResult : Obligations.InResult := by
  unfold Obligations.InResult
  refine ⟨fun i s hv => ?_, fun t c rest running noStop isIn queued => ?_⟩
  · rw [(exec_of_isTrapAt hv s).1]
    show Host.Outcome.next (trapIn s.trapLink) = _
    simp only [trapIn, State.hostWrite, s.trapLink_output, s.trapLink_params]
  · rw [step_of_wait_cons running noStop (by rw [isIn]; exact Wait.noConfusion) queued, t.inputArrived_eq]
    simp only [isIn, true_and]

/-- Settles O39: past all six tests the dispatcher leaves the link. -/
theorem unrecognisedVector : Obligations.UnrecognisedVector := by
  unfold Obligations.UnrecognisedVector
  intro ign v s notGetc notOut notPuts notIn notPutsp notHalt
  show Host.Outcome.next (trapDispatch _ v s) = .next s.trapLink
  rw [trapDispatch, if_neg notGetc, if_neg notOut, if_neg notPuts, if_neg notIn, if_neg notPutsp, if_neg notHalt]

/-! ## The string scans of PUTS and PUTSP (45_trap.md R226, R232, R234) -/

section
variable (chars : Word → List Byte) (ir : Word) (s : State)

/-- The characters of the `n` words from the address in R0 up. -/
def scanned (n : Nat) : List Byte :=
  (List.range n).flatMap fun k => chars (s.mem.read ((s.reg 0).toNat + k))

theorem trapScan_of_terminator {n : Nat} (inMemory : (s.reg 0).toNat + n < memWords)
    (nonzero : ∀ k < n, s.mem.read ((s.reg 0).toNat + k) ≠ 0x0000#16)
    (zero : s.mem.read ((s.reg 0).toNat + n) = 0x0000#16) :
    trapScan chars ir s.trapLink = { s.trapLink with output := s.output ++ scanned chars s n } := by
  have scan := scanString_of_terminator chars s.mem inMemory nonzero zero
  simp only [trapScan, s.trapLink_mem, s.trapLink_reg_zero, scan, State.hostWrite, s.trapLink_output]
  rfl

theorem trapScan_of_overrun (noZero : ∀ b, (s.reg 0).toNat ≤ b → b < memWords → s.mem.read b ≠ 0x0000#16) :
    trapScan chars ir s.trapLink =
      { s.trapLink with
        output := s.output ++ scanned chars s (memWords - (s.reg 0).toNat)
        status := .faulted { kind := .trapScanOverrun, address := s.pc - 1, word := ir } } := by
  have scan := scanString_of_overrun chars s.mem (s.reg 0).isLt.le noZero
  simp only [trapScan, s.trapLink_mem, s.trapLink_reg_zero, scan, if_true, State.hostWrite, State.raiseFault,
    s.trapLink_output, s.trapLink_pc]
  rfl

/-- A scan writes at least a character a word when each word has one. -/
theorem le_length_scanned (nonempty : ∀ w, 1 ≤ (chars w).length) (n : Nat) : n ≤ (scanned chars s n).length := by
  have lengths := List.length_le_sum_of_one_le
    ((List.range n).map fun k => (chars (s.mem.read ((s.reg 0).toNat + k))).length) fun _ listed => by
      obtain ⟨k, -, rfl⟩ := List.mem_map.mp listed
      exact nonempty _
  rwa [List.length_map, List.length_range, ← List.length_flatMap] at lengths

end

theorem exec_puts {i : Instr} (hv : i.isTrapAt 0x22#8) (s : State) :
    exec i s = .next (trapScan putsChars (encode i) s.trapLink) := (exec_of_isTrapAt hv s).1

theorem exec_putsp {i : Instr} (hv : i.isTrapAt 0x24#8) (s : State) :
    exec i s = .next (trapScan putspChars (encode i) s.trapLink) := (exec_of_isTrapAt hv s).1

/-- PUTS has one character a word. -/
theorem scanned_putsChars (s : State) (n : Nat) : scanned putsChars s n =
    (List.range n).map fun k => (s.mem.read ((s.reg 0).toNat + k)).extractLsb' 0 8 :=
  (List.map_eq_flatMap ..).symm

/-- Settles O34: the scan of PUTS up to its terminator, or to the top of memory. -/
theorem putsResult : Obligations.PutsResult := by
  unfold Obligations.PutsResult
  intro i s hv
  rw [exec_puts hv s]
  refine ⟨fun n inMemory nonzero zero => ?_, fun noZero => ?_⟩
  · rw [trapScan_of_terminator putsChars _ s inMemory nonzero zero, scanned_putsChars]
  · rw [trapScan_of_overrun putsChars _ s noZero, scanned_putsChars]

/-- Settles O36: the scan of PUTSP up to its terminator, or to the top of memory. -/
theorem putspResult : Obligations.PutspResult := by
  unfold Obligations.PutspResult
  intro chars i s hv
  have sameChars : chars = putspChars := funext fun w => (apply_ite (List.cons (lowByte w)) _ [] [highByte w]).symm
  rw [exec_putsp hv s, sameChars]
  exact ⟨fun n inMemory nonzero zero => congrArg _ (trapScan_of_terminator putspChars _ s inMemory nonzero zero),
    fun noZero => congrArg _ (trapScan_of_overrun putspChars _ s noZero)⟩

/-- Either scan with no zero word ahead faults, having written at least a character a word. -/
theorem exec_scan_of_overrun {i : Instr} {v : BitVec 8} (hv : i.isTrapAt v) (isScan : v = 0x22#8 ∨ v = 0x24#8)
    {s : State} (noZero : ∀ b, (s.reg 0).toNat ≤ b → b < memWords → s.mem.read b ≠ 0x0000#16) :
    ∃ cs, exec i s = .next { s.trapLink with
        output := s.output ++ cs
        status := .faulted { kind := .trapScanOverrun, address := s.pc - 1, word := encode i } } ∧
      memWords - (s.reg 0).toNat ≤ cs.length := by
  obtain rfl | rfl := isScan
  · refine ⟨_, (exec_puts hv s).trans (congrArg _ (trapScan_of_overrun putsChars _ s noZero)), ?_⟩
    exact le_length_scanned putsChars s (fun _ => Nat.le_refl 1) _
  · refine ⟨_, (exec_putsp hv s).trans (congrArg _ (trapScan_of_overrun putspChars _ s noZero)), ?_⟩
    exact le_length_scanned putspChars s (fun _ => Nat.le_add_left 1 _) _

/-- Settles O37: the fetched word is a scan, whose overrun records the word and the PC before the fetch. -/
theorem scanOverrunFault : Obligations.ScanOverrunFault := by
  unfold Obligations.ScanOverrunFault
  intro s fetches isTrap isScan noZero
  rw [← s.afterFetch_reg 0] at noZero ⊢
  obtain ⟨cs, run, long⟩ := exec_scan_of_overrun (decode_isTrapAt isTrap) isScan noZero
  refine ⟨_, cs, (step_of_fetches fetches).trans run, ?_, ?_, long, s.afterFetch.trapLink_pc⟩
  · rw [encode_decode, s.afterFetch_pc, BitVec.add_sub_cancel]
  · rw [s.afterFetch_output]

/-! ## HALT (45_trap.md R236) -/

theorem exec_halt {i : Instr} (hv : i.isTrapAt 0x25#8) (s : State) : exec i s =
    .next { s.trapLink with output := s.output ++ s.params.haltNotice, status := .halted } := by
  rw [(exec_of_isTrapAt hv s).1]
  show Host.Outcome.next (trapHalt s.trapLink) = _
  simp only [trapHalt, State.hostWrite, s.trapLink_output, s.trapLink_params]

/-- Settles O38: HALT leaves the PC that the fetch gave, and STATUS Halted, in which there is no step. -/
theorem haltResult : Obligations.HaltResult := by
  unfold Obligations.HaltResult
  refine ⟨fun i s hv => exec_halt hv s, fun s t fetches isHalt h => ?_⟩
  rw [step_of_fetches fetches, exec_halt isHalt] at h
  obtain rfl := Host.Outcome.next.inj h
  exact ⟨s.afterFetch.trapLink_pc, step_of_ended Status.noConfusion⟩

end Sys2Proof.Machine
end

section
/-! RES and RTI (46_fatal.md), and the end of a run (40_cycle.md R126, 60_exceptions.md R270 to R275). -/

namespace Sys2Proof.Machine

/-! ## RES and RTI -/

/-- A fault raised on the state that a fetch left records the address the fetch was from. -/
theorem State.raiseFault_afterFetch (s : State) (kind : FaultKind) (w : Word) : s.afterFetch.raiseFault kind w =
    { s.afterRead s.pc with
      pc := s.pc + 1
      status := .faulted { kind := kind, address := s.pc, word := w } } := by
  rw [raiseFault, s.afterFetch_pc, BitVec.add_sub_cancel]
  rfl

theorem exec_res (ign : BitVec 12) (s : State) :
    exec (.res ign) s = .next (s.raiseFault .reservedOpcode (encode (.res ign))) := rfl

theorem exec_rti (ign : BitVec 12) (s : State) :
    exec (.rti ign) s = .next (s.raiseFault .unimplementedRTI (encode (.rti ign))) := rfl

theorem step_of_opRES {s : State} (fetches : s.Fetches) (isRes : opcode s.fetchWord = opRES) :
    step s = .next (s.afterFetch.raiseFault .reservedOpcode s.fetchWord) := by
  rw [step_of_fetches fetches, decode_opRES isRes, exec_res, ← decode_opRES isRes, encode_decode]

theorem step_of_opRTI {s : State} (fetches : s.Fetches) (isRti : opcode s.fetchWord = opRTI) :
    step s = .next (s.afterFetch.raiseFault .unimplementedRTI s.fetchWord) := by
  rw [step_of_fetches fetches, decode_opRTI isRti, exec_rti, ← decode_opRTI isRti, encode_decode]

/-- Settles O40: the step records the word as fetched, since encoding it again loses no bit. -/
theorem resFault : Obligations.ResFault := by
  unfold Obligations.ResFault
  refine ⟨fun s fetches isRes => ?_, exec_res⟩
  rw [step_of_opRES fetches isRes, s.raiseFault_afterFetch]

/-- Settles O41: the step records the word as fetched, since encoding it again loses no bit. -/
theorem rtiFault : Obligations.RtiFault := by
  unfold Obligations.RtiFault
  refine ⟨fun s fetches isRti => ?_, exec_rti⟩
  rw [step_of_opRTI fetches isRti, s.raiseFault_afterFetch]

/-! ## Host actions (40_cycle.md R120, 60_exceptions.md R275) -/

theorem hostAct_requestStop_of_running {s : State} (running : s.status = .running) :
    hostAct .requestStop s = { s with stopRequest := true } := if_pos running

theorem hostAct_requestStop_of_ended {s : State} (ended : s.status ≠ .running) : hostAct .requestStop s = s :=
  if_neg ended

/-- A host action touches the queue and the stop request, and nothing else. -/
theorem hostAct_eq (a : HostAction) (s : State) :
    hostAct a s = { s with input := (hostAct a s).input, stopRequest := (hostAct a s).stopRequest } := by
  cases a with
  | appendInput c => rfl
  | requestStop =>
    unfold hostAct
    dsimp only
    split <;> rfl

@[simp] theorem hostAct_status (a : HostAction) (s : State) : (hostAct a s).status = s.status := by
  rw [hostAct_eq]

theorem foldl_hostAct_status (acts : List HostAction) (s : State) :
    (acts.foldl (fun u a => hostAct a u) s).status = s.status := by
  induction acts generalizing s with
  | nil => rfl
  | cons a acts ih => exact (ih (hostAct a s)).trans (hostAct_status a s)

/-- Settles O42: both faults are the fetched state with PC and STATUS changed, and no host action changes STATUS. -/
theorem fatalIsFinal : Obligations.FatalIsFinal := by
  unfold Obligations.FatalIsFinal
  intro s t acts fetches isFatal h
  obtain ⟨kind, rfl⟩ : ∃ kind, t = s.afterFetch.raiseFault kind s.fetchWord := by
    obtain isRes | isRti := isFatal
    · exact ⟨_, Host.Outcome.next.inj (h.symm.trans (step_of_opRES fetches isRes))⟩
    · exact ⟨_, Host.Outcome.next.inj (h.symm.trans (step_of_opRTI fetches isRti))⟩
  refine ⟨⟨_, s.raiseFault_afterFetch kind _⟩, step_of_ended ?_⟩
  rw [foldl_hostAct_status, State.raiseFault_status]
  exact Status.noConfusion

/-! ## The ways a run ends -/

/-- The instruction that raises a fault, told by its word (60_exceptions.md R271). -/
theorem Raises.cases {w : Word} {kind : FaultKind} (h : Raises (decode w) kind) :
    (kind = .reservedOpcode ∧ opcode w = opRES) ∨ (kind = .unimplementedRTI ∧ opcode w = opRTI) ∨
    (kind = .trapScanOverrun ∧ ((decode w).isTrapAt 0x22#8 ∨ (decode w).isTrapAt 0x24#8)) := by
  have op := opcode_encode (decode w)
  rw [encode_decode] at op
  cases kind with
  | reservedOpcode =>
    obtain ⟨ign, isRes⟩ := h
    exact .inl ⟨rfl, op.trans (congrArg Instr.opcodeNumber isRes)⟩
  | unimplementedRTI =>
    obtain ⟨ign, isRti⟩ := h
    exact .inr (.inl ⟨rfl, op.trans (congrArg Instr.opcodeNumber isRti)⟩)
  | trapScanOverrun => exact .inr (.inr ⟨rfl, h⟩)

/-- STATUS after a step: still Running, or one of the ends. -/
theorem step_status {s t : State} (h : step s = .next t) :
    t.status = .running ∨ (t = s.takeStop ∧ s.stopRequest = true) ∨
    (s.Fetches ∧ t.status = .halted ∧ (decode s.fetchWord).isTrapAt 0x25#8) ∨
    (s.Fetches ∧ ∃ kind, t.status = .faulted { kind := kind, address := s.pc, word := s.fetchWord } ∧
      Raises (decode s.fetchWord) kind) := by
  obtain ⟨running, ⟨pending, rfl⟩ | ⟨-, -, c, rest, -, rfl⟩ | ⟨noStop, noWait, run⟩⟩ := step_cases h
  · exact .inr (.inl ⟨rfl, pending⟩)
  · exact .inl running
  · obtain same | ⟨halted, isHalt⟩ | ⟨kind, faulted, raises⟩ := exec_status run
    · exact .inl (same.trans (s.afterFetch_status.trans running))
    · exact .inr (.inr (.inl ⟨⟨running, noStop, noWait⟩, halted, isHalt⟩))
    · rw [encode_decode, s.afterFetch_pc, BitVec.add_sub_cancel] at faulted
      exact .inr (.inr (.inr ⟨⟨running, noStop, noWait⟩, kind, faulted, raises⟩))

/-- Settles O44: the ways STATUS can leave Running, with the fault told by the fetched word. -/
theorem runEnds : Obligations.RunEnds := by
  unfold Obligations.RunEnds
  refine ⟨fun s t h ended => ?_, fun s ended => step_of_ended ended⟩
  obtain running | ⟨rfl, pending⟩ | halted | ⟨fetches, kind, faulted, raises⟩ := step_status h
  · exact absurd running ended
  · exact .inl ⟨s.takeStop_status, pending⟩
  · exact .inr (.inl halted)
  · exact .inr (.inr ⟨fetches, kind, faulted, raises.cases⟩)

/-- The instructions that end a run leave the PC of their fetch. -/
theorem step_pc_of_ended {s t : State} (h : step s = .next t) (fetches : s.Fetches)
    (keepsPc : (decode s.fetchWord).writesPc = false) : t.pc = s.pc + 1 := by
  rw [step_of_fetches fetches] at h
  exact exec_pc h keepsPc

theorem writesPc_of_isTrapAt {i : Instr} {v : BitVec 8} (hv : i.isTrapAt v) : i.writesPc = false := by
  obtain ⟨-, -, keepsPc, -⟩ := tables_of_isTrapAt hv State.reset
  exact keepsPc

theorem Raises.writesPc {i : Instr} {kind : FaultKind} (h : Raises i kind) : i.writesPc = false := by
  cases kind with
  | reservedOpcode | unimplementedRTI =>
    obtain ⟨ign, rfl⟩ := h
    rfl
  | trapScanOverrun => exact h.elim writesPc_of_isTrapAt writesPc_of_isTrapAt

/-- The characters consumed, followed by those queued, are the same after every step (40_cycle.md R127). -/
theorem step_consumed_input {s t : State} (h : step s = .next t) :
    t.consumed ++ t.input = s.consumed ++ s.input := by
  obtain ⟨cs, input, consumed, -⟩ := step_takes h
  rw [input, consumed, List.append_assoc]

/-- Settles O60: PC by the way the run ended, and the two lists by what a step, an append and a launch do to them. -/
theorem endState : Obligations.EndState := by
  unfold Obligations.EndState
  refine ⟨fun s t h ended => ?_, fun p gpr cond first more => ⟨rfl, rfl⟩, fun c s => rfl, fun s => ?_,
    fun s t h => step_consumed_input h⟩
  · obtain running | ⟨rfl, -⟩ | ⟨fetches, halted, isHalt⟩ | ⟨fetches, kind, faulted, raises⟩ := step_status h
    · exact absurd running ended
    · exact (if_pos s.takeStop_status).symm
    · rw [halted, if_neg Status.noConfusion, step_pc_of_ended h fetches (writesPc_of_isTrapAt isHalt)]
    · rw [faulted, if_neg Status.noConfusion, step_pc_of_ended h fetches raises.writesPc]
  · by_cases running : s.status = .running
    · rw [hostAct_requestStop_of_running running]
      exact ⟨rfl, rfl⟩
    · rw [hostAct_requestStop_of_ended running]
      exact ⟨rfl, rfl⟩

end Sys2Proof.Machine
end

section
/-! What an instruction does not depend on: bits marked x (30_encoding.md R96), a stop request (60_exceptions.md R275),
and the registers it does not read (10_state.md R33). -/

namespace Sys2Proof.Machine

/-! ## Ignored bits -/

/-- The same next state, but for the word that a fault records, which is `w` in the second. -/
def SameUpToWord (w : Word) (t t' : State) : Prop :=
  t' = t ∨ ∃ f, t.status = .faulted f ∧ t' = { t with status := .faulted { f with word := w } }

theorem trapScan_sameUpToWord (chars : Word → List Byte) (ir ir' : Word) (s : State) :
    SameUpToWord ir' (trapScan chars ir s) (trapScan chars ir' s) := by
  unfold trapScan
  dsimp only
  split
  · exact .inr ⟨_, rfl, rfl⟩
  · exact .inl rfl

/-- The routines of the vectors, and nothing for another one (45_trap.md R220, R238). -/
def trapRoutine (ir : Word) (v : BitVec 8) (s : State) : State :=
  if v = vecGETC then trapGetc s
  else if v = vecOUT then trapOut s
  else if v = vecPUTS then trapPuts ir s
  else if v = vecIN then trapIn s
  else if v = vecPUTSP then trapPutsp ir s
  else if v = vecHALT then trapHalt s
  else s

/-- The dispatcher is the link, then the routine of the vector. -/
theorem trapDispatch_eq_trapRoutine (ir : Word) (v : BitVec 8) (s : State) :
    trapDispatch ir v s = trapRoutine ir v s.trapLink := rfl

theorem trapRoutine_sameUpToWord (ir ir' : Word) (v : BitVec 8) (s : State) :
    SameUpToWord ir' (trapRoutine ir v s) (trapRoutine ir' v s) := by
  unfold trapRoutine
  split_ifs with isGetc isOut isPuts isIn isPutsp isHalt
  · exact .inl rfl
  · exact .inl rfl
  · exact trapScan_sameUpToWord putsChars ir ir' s
  · exact .inl rfl
  · exact trapScan_sameUpToWord putspChars ir ir' s
  · exact .inl rfl
  · exact .inl rfl

/-- Settles O4: `exec` hands no ignored field to a meaning, except that the faults record the whole word. -/
theorem ignoredBitsChangeNothing : Obligations.IgnoredBitsChangeNothing := by
  unfold Obligations.IgnoredBitsChangeNothing
  refine ⟨fun _ _ _ _ _ _ => rfl, fun _ _ _ _ _ _ => rfl, fun _ _ _ _ _ => rfl, fun _ _ _ _ _ _ => rfl,
    fun _ _ _ _ _ => rfl, fun _ _ _ _ _ _ => rfl, fun i j v s hi hj => ?_, fun x y s => ⟨_, _, rfl, rfl, rfl⟩,
    fun x y s => ⟨_, _, rfl, rfl, rfl⟩⟩
  refine ⟨_, (exec_of_isTrapAt hi s).1, ?_⟩
  rw [(exec_of_isTrapAt hj s).1, trapDispatch_eq_trapRoutine, trapDispatch_eq_trapRoutine]
  obtain same | ⟨f, faulted, differ⟩ := trapRoutine_sameUpToWord (encode i) (encode j) v s.trapLink
  · exact .inl (congrArg _ same)
  · exact .inr ⟨f, faulted, congrArg _ differ⟩

/-! ## Changes that pass through an operation -/

/-- A change of the state that no bridged read and no trap routine writes over: it leaves the parameters and PC, and it
may be made before or after memory, the host's streams, STATUS and WAIT are updated. -/
structure Passes (f : State → State) : Prop where
  params : ∀ s, (f s).params = s.params
  pc : ∀ s, (f s).pc = s.pc
  update : ∀ s m input consumed output status wait,
    f { s with mem := m, input := input, consumed := consumed, output := output, status := status, wait := wait } =
      { f s with mem := m, input := input, consumed := consumed, output := output, status := status, wait := wait }

/-- The state with another value of the stop request. -/
def State.setStopRequest (s : State) (b : Bool) : State := { s with stopRequest := b }

theorem passes_setStopRequest (b : Bool) : Passes (·.setStopRequest b) :=
  ⟨fun _ => rfl, fun _ => rfl, fun _ _ _ _ _ _ _ => rfl⟩

theorem passes_setReg (r : RegIdx) (v : Word) : Passes (·.setReg r v) :=
  ⟨fun _ => rfl, fun _ => rfl, fun _ _ _ _ _ _ _ => rfl⟩

namespace Passes

variable {f : State → State} (hf : Passes f) (s : State)
include hf

/-- What may be updated after the change, the change has left alone. -/
theorem same : f s = { f s with
    mem := s.mem, input := s.input, consumed := s.consumed, output := s.output, status := s.status, wait := s.wait } :=
  hf.update s s.mem s.input s.consumed s.output s.status s.wait

theorem mem : (f s).mem = s.mem := by rw [hf.same]
theorem input : (f s).input = s.input := by rw [hf.same]
theorem consumed : (f s).consumed = s.consumed := by rw [hf.same]
theorem output : (f s).output = s.output := by rw [hf.same]

theorem afterRead (a : Word) : (f s).afterRead a = f (s.afterRead a) := by
  rw [State.afterRead_congr (hf.mem s) (hf.input s) (hf.params s) a, hf.consumed, ← s.afterRead_consumed a, hf.same]
  exact (hf.update s _ _ _ _ _ _).symm.trans (congrArg f (s.afterRead_eq a).symm)

theorem memRead (a : Word) : (f s).memRead a = s.memRead a :=
  State.memRead_congr (hf.mem s) (hf.input s) (hf.params s) a

theorem pcRel {n : Nat} (off : BitVec n) : (f s).pcRel off = s.pcRel off := by
  rw [State.pcRel, hf.pc, State.pcRel]

theorem indirect (off9 : BitVec 9) : (f s).indirect off9 = s.indirect off9 := by
  rw [State.indirect, hf.pcRel, hf.memRead, State.indirect]

/-- A load after the change is the load's result written to its changed bridged read. -/
theorem loadFrom (dr : RegIdx) (ea : Word) :
    (f s).loadFrom dr ea = (f (s.afterRead ea)).setResult dr (s.memRead ea) := by
  rw [State.loadFrom, hf.afterRead, hf.memRead]

theorem hostWrite (cs : List Byte) : (f s).hostWrite cs = f (s.hostWrite cs) := by
  rw [State.hostWrite, hf.output, hf.same]
  exact (hf.update s _ _ _ _ _ _).symm

theorem setWait (w : Wait) : { f s with wait := w } = f { s with wait := w } := by
  rw [hf.same]
  exact (hf.update s _ _ _ _ _ _).symm

theorem setStatus (status : Status) : { f s with status := status } = f { s with status := status } := by
  rw [hf.same]
  exact (hf.update s _ _ _ _ _ _).symm

theorem raiseFault (kind : FaultKind) (w : Word) : (f s).raiseFault kind w = f (s.raiseFault kind w) :=
  (congrArg (fun a => { f s with status := .faulted { kind := kind, address := a - 1, word := w } }) (hf.pc s)).trans
    (hf.setStatus s _)

/-- A scan starts at the address in R0. -/
theorem trapScan (chars : Word → List Byte) (ir : Word) (reads : (f s).reg 0 = s.reg 0) :
    trapScan chars ir (f s) = f (trapScan chars ir s) := by
  simp only [Machine.trapScan, hf.mem, reads, hf.hostWrite, hf.raiseFault]
  exact (apply_ite f _ _ _).symm

/-- The routines that read R0 are those of OUT, PUTS and PUTSP. -/
theorem trapRoutine (ir : Word) {v : BitVec 8}
    (reads : v = 0x21#8 ∨ v = 0x22#8 ∨ v = 0x24#8 → (f s).reg 0 = s.reg 0) :
    trapRoutine ir v (f s) = f (trapRoutine ir v s) := by
  unfold Machine.trapRoutine
  split_ifs with isGetc isOut isPuts isIn isPutsp isHalt
  · exact hf.setWait s _
  · rw [trapOut, reads (.inl isOut), hf.hostWrite, trapOut]
  · exact hf.trapScan s putsChars ir (reads (.inr (.inl isPuts)))
  · rw [trapIn, hf.params, hf.hostWrite, hf.setWait, trapIn]
  · exact hf.trapScan s putspChars ir (reads (.inr (.inr isPutsp)))
  · rw [trapHalt, hf.params, hf.hostWrite, hf.setStatus, trapHalt]
  · rfl

end Passes

/-! ## The stop request -/

theorem State.trapLink_setStopRequest (s : State) (b : Bool) :
    (s.setStopRequest b).trapLink = s.trapLink.setStopRequest b := by
  unfold trapLink
  rw [apply_ite (setStopRequest · b)]
  rfl

/-- A load writes its result over nothing that the stop request could have changed. -/
theorem State.loadFrom_setStopRequest (s : State) (b : Bool) (dr : RegIdx) (ea : Word) :
    (s.setStopRequest b).loadFrom dr ea = (s.loadFrom dr ea).setStopRequest b :=
  (passes_setStopRequest b).loadFrom s dr ea

theorem exec_setStopRequest_of_isTrap {i : Instr} {s t : State} (b : Bool) (isTrap : i.isTrap = true)
    (h : exec i s = .next t) : exec i (s.setStopRequest b) = .next (t.setStopRequest b) := by
  obtain ⟨v, hv⟩ := isTrapAt_of_isTrap isTrap
  rw [eq_trapDispatch hv h, (exec_of_isTrapAt hv _).1, trapDispatch_eq_trapRoutine, s.trapLink_setStopRequest]
  exact congrArg _ ((passes_setStopRequest b).trapRoutine s.trapLink _ fun _ => rfl)

/-- No instruction reads or writes the stop request. -/
theorem exec_setStopRequest {i : Instr} {s t : State} (b : Bool) (h : exec i s = .next t) :
    exec i (s.setStopRequest b) = .next (t.setStopRequest b) := by
  have passes := passes_setStopRequest b
  cases i with
  | addReg | addImm | andReg | andImm | not | lea | jmp | ret | jsr | jsrr | st | str | res | rti =>
    obtain rfl := Host.Outcome.next.inj h
    rfl
  | br nzp off9 =>
    obtain rfl := Host.Outcome.next.inj ((exec_br nzp off9 s).symm.trans h)
    rw [exec_br, apply_ite (State.setStopRequest · b)]
    rfl
  | ld dr off9 =>
    obtain rfl := Host.Outcome.next.inj ((exec_ld dr off9 s).symm.trans h)
    rw [exec_ld, passes.pcRel, State.loadFrom_setStopRequest]
  | ldr dr base off6 =>
    obtain rfl := Host.Outcome.next.inj ((exec_ldr dr base off6 s).symm.trans h)
    exact congrArg _ (s.loadFrom_setStopRequest b dr _)
  | ldi dr off9 =>
    obtain rfl := Host.Outcome.next.inj ((exec_ldi dr off9 s).symm.trans h)
    rw [exec_ldi, passes.indirect, passes.pcRel, passes.afterRead, State.loadFrom_setStopRequest]
  | sti sr off9 =>
    obtain rfl := Host.Outcome.next.inj ((exec_sti sr off9 s).symm.trans h)
    rw [exec_sti, passes.indirect, passes.pcRel, passes.afterRead]
    rfl
  | trap | getc | out | puts | inp | putsp | halt => exact exec_setStopRequest_of_isTrap b rfl h

/-- Settles O43: raising, keeping, independence of instructions, taking, and no effect once the run has ended. -/
theorem stopRequest : Obligations.StopRequest := by
  unfold Obligations.StopRequest
  refine ⟨fun s => hostAct_requestStop_of_running, fun s => step_of_stopRequest, fun s a pending => ?_,
    fun i s t b h => exec_setStopRequest b h, fun s => hostAct_requestStop_of_ended⟩
  cases a with
  | appendInput c => exact pending
  | requestStop =>
    by_cases running : s.status = .running
    · rw [hostAct_requestStop_of_running running]
    · rw [hostAct_requestStop_of_ended running, pending]

/-! ## Registers that are not read -/

namespace State

variable (s : State) (r : RegIdx) (v : Word)

/-- A write over an earlier one of the same register, or after one of another. -/
theorem setReg_setReg_cases (r' : RegIdx) (w : Word) :
    (s.setReg r v).setReg r' w = s.setReg r' w ∨ (s.setReg r v).setReg r' w = (s.setReg r' w).setReg r v := by
  by_cases same : r = r'
  · subst same
    exact .inl (s.setReg_setReg r v w)
  · exact .inr (s.setReg_comm v w same)

theorem setResult_setReg_cases (dr : RegIdx) (w : Word) :
    (s.setReg r v).setResult dr w = s.setResult dr w ∨
    (s.setReg r v).setResult dr w = (s.setResult dr w).setReg r v :=
  (s.setReg_setReg_cases r v dr w).imp (congrArg (setCond · (condOf w))) (congrArg (setCond · (condOf w)))

theorem setReg_setPc_setReg_cases (r' : RegIdx) (w pc : Word) :
    ((s.setReg r v).setReg r' w).setPc pc = (s.setReg r' w).setPc pc ∨
    ((s.setReg r v).setReg r' w).setPc pc = ((s.setReg r' w).setPc pc).setReg r v :=
  (s.setReg_setReg_cases r v r' w).imp (congrArg (setPc · pc)) (congrArg (setPc · pc))

theorem trapLink_setReg_cases :
    (s.setReg r v).trapLink = s.trapLink ∨ (s.setReg r v).trapLink = s.trapLink.setReg r v := by
  unfold trapLink
  rw [setReg_params]
  split
  · exact s.setReg_setReg_cases r v 7 s.pc
  · exact .inr rfl

end State

/-- The same next state, but perhaps for register `r`, which holds `v` in the second. -/
def SameButReg (r : RegIdx) (v : Word) (t t' : State) : Prop := t' = t ∨ t' = t.setReg r v

theorem trapDispatch_sameButReg (ir : Word) {v : BitVec 8} (s : State) {r : RegIdx} (w : Word)
    (unread : v = 0x21#8 ∨ v = 0x22#8 ∨ v = 0x24#8 → r ≠ 0) :
    SameButReg r w (trapDispatch ir v s) (trapDispatch ir v (s.setReg r w)) := by
  rw [trapDispatch_eq_trapRoutine, trapDispatch_eq_trapRoutine]
  obtain overwritten | kept := s.trapLink_setReg_cases r w
  · exact .inl (congrArg _ overwritten)
  · rw [kept]
    exact .inr ((passes_setReg r w).trapRoutine _ ir fun reads => State.reg_setReg_other _ w (unread reads).symm)

theorem ne_zero_of_unread {i : Instr} {v : BitVec 8} (hv : i.isTrapAt v) {r : RegIdx} (unread : r ∉ i.gprReads)
    (reads : v = 0x21#8 ∨ v = 0x22#8 ∨ v = 0x24#8) : r ≠ 0 := by
  rintro rfl
  rcases hv with ⟨ign, rfl⟩ | ⟨rfl, rfl⟩ | ⟨rfl, rfl⟩ | ⟨rfl, rfl⟩ | ⟨rfl, rfl⟩ | ⟨rfl, rfl⟩ | ⟨rfl, rfl⟩
  · simp [Instr.gprReads, reads] at unread
  all_goals revert unread reads; decide

theorem exec_sameButReg_of_isTrap {i : Instr} {s t : State} {r : RegIdx} (v : Word) (isTrap : i.isTrap = true)
    (unread : r ∉ i.gprReads) (h : exec i s = .next t) :
    ∃ t', exec i (s.setReg r v) = .next t' ∧ SameButReg r v t t' := by
  obtain ⟨w, hw⟩ := isTrapAt_of_isTrap isTrap
  rw [eq_trapDispatch hw h, (exec_of_isTrapAt hw _).1]
  exact ⟨_, rfl, trapDispatch_sameButReg _ s v (ne_zero_of_unread hw unread)⟩

theorem setReg_reg_of_unread {i : Instr} {r : RegIdx} (unread : r ∉ i.gprReads) (s : State) (v : Word) {q : RegIdx}
    (read : q ∈ i.gprReads) : (s.setReg r v).reg q = s.reg q :=
  s.reg_setReg_other v (ne_of_mem_of_not_mem read unread)

theorem exec_sameButReg {i : Instr} {s t : State} {r : RegIdx} (v : Word) (unread : r ∉ i.gprReads)
    (h : exec i s = .next t) : ∃ t', exec i (s.setReg r v) = .next t' ∧ SameButReg r v t t' := by
  have passes := passes_setReg r v
  have sameReg : ∀ {q}, q ∈ i.gprReads → (s.setReg r v).reg q = s.reg q := setReg_reg_of_unread unread s v
  cases i with
  | addReg dr sr1 ign sr2 =>
    obtain rfl := Host.Outcome.next.inj h
    rw [exec_addReg, sameReg (q := sr1) (.head _), sameReg (q := sr2) (.tail _ (.head _))]
    exact ⟨_, rfl, s.setResult_setReg_cases r v dr _⟩
  | andReg dr sr1 ign sr2 =>
    obtain rfl := Host.Outcome.next.inj h
    rw [exec_andReg, sameReg (q := sr1) (.head _), sameReg (q := sr2) (.tail _ (.head _))]
    exact ⟨_, rfl, s.setResult_setReg_cases r v dr _⟩
  | addImm dr sr1 imm5 =>
    obtain rfl := Host.Outcome.next.inj h
    rw [exec_addImm, sameReg (.head _)]
    exact ⟨_, rfl, s.setResult_setReg_cases r v dr _⟩
  | andImm dr sr1 imm5 =>
    obtain rfl := Host.Outcome.next.inj h
    rw [exec_andImm, sameReg (.head _)]
    exact ⟨_, rfl, s.setResult_setReg_cases r v dr _⟩
  | not dr sr ign =>
    obtain rfl := Host.Outcome.next.inj h
    rw [exec_not, sameReg (.head _)]
    exact ⟨_, rfl, s.setResult_setReg_cases r v dr _⟩
  | lea dr off9 =>
    obtain rfl := Host.Outcome.next.inj h
    exact ⟨_, rfl, s.setResult_setReg_cases r v dr _⟩
  | br nzp off9 =>
    obtain rfl := Host.Outcome.next.inj ((exec_br nzp off9 s).symm.trans h)
    refine ⟨_, exec_br nzp off9 _, .inr ?_⟩
    rw [apply_ite (State.setReg · r v)]
    rfl
  | jmp ignHi base ignLo =>
    obtain rfl := Host.Outcome.next.inj h
    rw [exec_jmp, sameReg (.head _)]
    exact ⟨_, rfl, .inr rfl⟩
  | ret ignHi ignLo =>
    obtain rfl := Host.Outcome.next.inj h
    rw [exec_ret, sameReg (.head _)]
    exact ⟨_, rfl, .inr rfl⟩
  | jsr off11 =>
    obtain rfl := Host.Outcome.next.inj h
    exact ⟨_, rfl, s.setReg_setPc_setReg_cases r v 7 _ _⟩
  | jsrr ignHi base ignLo =>
    obtain rfl := Host.Outcome.next.inj ((exec_jsrr ignHi base ignLo s).symm.trans h)
    rw [exec_jsrr, sameReg (.head _)]
    exact ⟨_, rfl, s.setReg_setPc_setReg_cases r v 7 _ _⟩
  | ld dr off9 =>
    obtain rfl := Host.Outcome.next.inj h
    rw [exec_ld, passes.pcRel, passes.loadFrom]
    exact ⟨_, rfl, State.setResult_setReg_cases _ r v dr _⟩
  | ldr dr base off6 =>
    obtain rfl := Host.Outcome.next.inj h
    rw [exec_ldr, State.baseRel, sameReg (.head _), ← State.baseRel, passes.loadFrom]
    exact ⟨_, rfl, State.setResult_setReg_cases _ r v dr _⟩
  | ldi dr off9 =>
    obtain rfl := Host.Outcome.next.inj ((exec_ldi dr off9 s).symm.trans h)
    rw [exec_ldi, passes.indirect, passes.pcRel, passes.afterRead, passes.loadFrom]
    exact ⟨_, rfl, State.setResult_setReg_cases _ r v dr _⟩
  | st sr off9 =>
    obtain rfl := Host.Outcome.next.inj h
    rw [exec_st, sameReg (.head _)]
    exact ⟨_, rfl, .inr rfl⟩
  | str sr base off6 =>
    obtain rfl := Host.Outcome.next.inj h
    rw [exec_str, State.baseRel, sameReg (q := sr) (.head _), sameReg (q := base) (.tail _ (.head _))]
    exact ⟨_, rfl, .inr rfl⟩
  | sti sr off9 =>
    obtain rfl := Host.Outcome.next.inj ((exec_sti sr off9 s).symm.trans h)
    rw [exec_sti, sameReg (.head _), passes.indirect, passes.pcRel, passes.afterRead]
    exact ⟨_, rfl, .inr rfl⟩
  | res | rti =>
    obtain rfl := Host.Outcome.next.inj h
    exact ⟨_, rfl, .inr rfl⟩
  | trap | getc | out | puts | inp | putsp | halt =>
    exact exec_sameButReg_of_isTrap v rfl unread h

/-- Settles O48: the unread register is overwritten, or its value passes through every operation. -/
theorem registerReaders : Obligations.RegisterReaders := by
  unfold Obligations.RegisterReaders
  exact fun i s t r v unread h => exec_sameButReg v unread h

end Sys2Proof.Machine
end

section
/-! The invariant (10_state.md sections 4, 5 and 8) along steps and runs, and the launch
(70_reset_and_hazards.md R300 to R304). -/

namespace Sys2Proof.Machine

/-! ## The invariant through one step -/

theorem condLegal_of_condOne {c : BitVec 3} (h : condOne c) : condLegal c := .inr h

/-- An instruction writes COND with `setcc`, so with one flag, or leaves it. -/
theorem exec_cond_cases {i : Instr} {s t : State} (h : exec i s = .next t) : condOne t.cond ∨ t.cond = s.cond := by
  have written := exec_cond h
  cases dest : i.flagDest with
  | some dr => exact .inl (by rw [written, dest]; exact condOne_condOf _)
  | none => exact .inr (by rw [written, dest]; rfl)

theorem exec_mem_wf {i : Instr} {s t : State} (h : exec i s = .next t) (canonical : s.mem.wf) : t.mem.wf := by
  obtain ⟨v, mem⟩ := exec_mem h
  have readsWf := s.afterReads_wf canonical (i.bridgedReads s)
  rw [mem]
  cases i.storeAddr s with
  | none => exact readsWf
  | some a => exact Memory.write_wf readsWf a.isLt v

theorem opcode_encode_of_isTrapAt {i : Instr} {v : BitVec 8} (h : i.isTrapAt v) : opcode (encode i) = opTRAP := by
  obtain ⟨-, -, -, -, op⟩ := tables_of_isTrapAt h State.reset
  rw [opcode_encode, op]

theorem fieldVect_encode_of_isTrapAt {i : Instr} {v : BitVec 8} (h : i.isTrapAt v) : fieldVect (encode i) = v := by
  rcases h with ⟨ign, rfl⟩ | ⟨rfl, rfl⟩ | ⟨rfl, rfl⟩ | ⟨rfl, rfl⟩ | ⟨rfl, rfl⟩ | ⟨rfl, rfl⟩ | ⟨rfl, rfl⟩
  · exact fieldVect_encode_trap ign v
  all_goals decide

/-- The word of an instruction that raises a fault is one the fault's record allows. -/
theorem Raises.sound {i : Instr} {kind : FaultKind} (h : Raises i kind) (address : Word) :
    FaultRecord.sound { kind := kind, address := address, word := encode i } := by
  cases kind with
  | reservedOpcode | unimplementedRTI =>
    obtain ⟨ign, rfl⟩ := h
    exact opcode_encode _
  | trapScanOverrun =>
    obtain isPuts | isPutsp := h
    · exact ⟨opcode_encode_of_isTrapAt isPuts, .inl (fieldVect_encode_of_isTrapAt isPuts)⟩
    · exact ⟨opcode_encode_of_isTrapAt isPutsp, .inr (fieldVect_encode_of_isTrapAt isPutsp)⟩

/-- An instruction that begins an input wait does not end the run: GETC and IN, told by their vectors. -/
theorem exec_status_of_waits {i : Instr} {s t : State} (h : exec i s = .next t) (waits : t.wait ≠ s.wait) :
    t.status = s.status := by
  rcases exec_shape i s with ⟨v, hv⟩ | ⟨notTrap, -⟩
  · have wait := exec_wait_of_isTrapAt hv h
    rw [eq_trapDispatch hv h]
    obtain same | ⟨-, rfl⟩ | ⟨-, rfl | rfl⟩ := trapDispatch_status (encode i) v s
    · exact same
    all_goals exact absurd wait (by simpa using waits)
  · exact absurd (exec_wait_of_not_isTrap h notTrap) waits

namespace State

variable {s t : State}

theorem Inv.afterFetch (inv : s.Inv) (running : s.status = .running) : s.afterFetch.Inv where
  mem_wf := s.afterFetch_wf inv.mem_wf
  cond_legal := s.afterFetch_cond ▸ inv.cond_legal
  params_wf := s.afterFetch_params ▸ inv.params_wf
  wait_live _ := .inl (s.afterFetch_status.trans running)
  fault_sound _ faulted := Status.noConfusion (running.symm.trans (s.afterFetch_status.symm.trans faulted))

theorem Inv.takeStop (inv : s.Inv) : s.takeStop.Inv where
  mem_wf := inv.mem_wf
  cond_legal := inv.cond_legal
  params_wf := inv.params_wf
  wait_live _ := .inr s.takeStop_status
  fault_sound _ faulted := Status.noConfusion faulted

theorem Inv.inputArrived (inv : s.Inv) (running : s.status = .running) (c : Byte) (rest : List Byte) :
    (s.inputArrived c rest).Inv where
  mem_wf := inv.mem_wf
  cond_legal := inv.cond_legal
  params_wf := inv.params_wf
  wait_live _ := .inl running
  fault_sound _ faulted := Status.noConfusion (running.symm.trans faulted)

/-- An instruction keeps the invariant in a run that goes on and is not waiting. -/
theorem Inv.exec {i : Instr} (inv : s.Inv) (running : s.status = .running) (noWait : s.wait = .none)
    (h : exec i s = .next t) : t.Inv where
  mem_wf := exec_mem_wf h inv.mem_wf
  cond_legal := by
    obtain one | same := exec_cond_cases h
    · exact condLegal_of_condOne one
    · rw [same]
      exact inv.cond_legal
  params_wf := by
    rw [exec_params h]
    exact inv.params_wf
  wait_live waits := .inl ((exec_status_of_waits h (noWait ▸ waits)).trans running)
  fault_sound f faulted := by
    obtain same | ⟨halted, -⟩ | ⟨kind, record, raises⟩ := exec_status h
    · exact Status.noConfusion (running.symm.trans (same.symm.trans faulted))
    · exact Status.noConfusion (halted.symm.trans faulted)
    · obtain rfl := Status.faulted.inj (record.symm.trans faulted)
      exact ⟨raises.sound _, (exec_pc h raises.writesPc).trans (BitVec.sub_add_cancel s.pc 1).symm⟩

theorem Inv.step (inv : s.Inv) (h : step s = .next t) : t.Inv := by
  obtain ⟨running, ⟨-, rfl⟩ | ⟨-, -, c, rest, -, rfl⟩ | ⟨-, noWait, run⟩⟩ := step_cases h
  · exact inv.takeStop
  · exact inv.inputArrived running c rest
  · exact (inv.afterFetch running).exec (s.afterFetch_status.trans running) (s.afterFetch_wait.trans noWait) run

/-- A host action touches no field the invariant speaks of. -/
theorem Inv.hostAct (inv : s.Inv) (a : HostAction) : (hostAct a s).Inv := by
  rw [hostAct_eq]
  exact ⟨inv.mem_wf, inv.cond_legal, inv.params_wf, inv.wait_live, inv.fault_sound⟩

end State

/-- Settles O55: each of the three kinds of step keeps the invariant. -/
theorem stepKeepsInv : Obligations.StepKeepsInv := by
  unfold Obligations.StepKeepsInv
  exact fun s t inv h => inv.step h

/-! ## Along a run -/

/-- What steps and host actions keep holds of every state they lead to. -/
theorem Reaches.keeps {P : State → Prop} (core : ∀ {t u}, P t → step t = .next u → P u)
    (host : ∀ a {t}, P t → P (hostAct a t)) {s t : State} (start : P s) (h : Reaches s t) : P t := by
  induction h with
  | start => exact start
  | core _ run ih => exact core ih run
  | host a _ ih => exact host a ih

theorem step_condOne {s t : State} (one : condOne s.cond) (h : step s = .next t) : condOne t.cond := by
  obtain ⟨-, ⟨-, rfl⟩ | ⟨-, -, c, rest, -, rfl⟩ | ⟨-, -, run⟩⟩ := step_cases h
  · exact one
  · exact one
  · obtain set | same := exec_cond_cases run
    · exact set
    · rw [same, s.afterFetch_cond]
      exact one

/-- Settles O56: one flag is kept by every step, and COND by every host action. -/
theorem condStaysOneFlag : Obligations.CondStaysOneFlag := by
  unfold Obligations.CondStaysOneFlag
  refine fun s t one => Reaches.keeps (P := fun u => condOne u.cond) step_condOne (fun a u one => ?_) one
  rw [hostAct_eq]
  exact one

/-! ## The launch (70_reset_and_hazards.md R302 to R304) -/

theorem State.initial_inv {p : Params} {cond : BitVec 3} {mem : Memory} (legal : p.wf) (condLegal : condLegal cond)
    (canonical : mem.wf) (gpr : Vector Word 8) (pc : Word) : (State.initial p gpr cond pc mem).Inv where
  mem_wf := canonical
  cond_legal := condLegal
  params_wf := legal
  wait_live waits := absurd rfl waits
  fault_sound _ faulted := Status.noConfusion faulted

theorem Memory.nil_wf : Memory.wf [] := ⟨.nil, fun _ listed => absurd listed List.not_mem_nil⟩

theorem Memory.foldl_loadImage_wf {m : Memory} (h : m.wf) (images : List Image) : (images.foldl loadImage m).wf := by
  induction images generalizing m with
  | nil => exact h
  | cons image images ih => exact ih (loadImage_wf h image)

/-- Settles O54: the reset state is an initial state with default parameters and empty memory. -/
theorem invAtReset : Obligations.InvAtReset := by
  unfold Obligations.InvAtReset
  exact State.initial_inv (by decide) (.inl rfl) Memory.nil_wf _ _

/-- Settles O57: a launch is an initial state over canonical memory, and steps and host actions keep the invariant. -/
theorem launchedRunsMeetInv : Obligations.LaunchedRunsMeetInv := by
  unfold Obligations.LaunchedRunsMeetInv
  intro p gpr cond first more t legal condLegal
  have launched : (State.launch p gpr cond first more).Inv :=
    State.initial_inv legal condLegal (Memory.foldl_loadImage_wf Memory.nil_wf _) _ _
  exact Reaches.keeps State.Inv.step (fun a _ inv => inv.hostAct a) launched

/-- A loaded word is read where it was placed; every other address reads as before. -/
theorem Memory.read_load {m : Memory} (h : m.wf) (a : Nat) (ws : List Word) {b : Nat} (inMemory : b < memWords) :
    (m.load a ws).read b = if a ≤ b then ws.getD (b - a) (m.read b) else m.read b := by
  induction ws generalizing m a with
  | nil => rw [load, List.getD_nil, ite_self]
  | cons w ws ih =>
    rw [load]
    split
    case isTrue addressed =>
      rw [ih (write_wf h addressed w), read_write h.1]
      rcases Nat.lt_trichotomy b a with below | rfl | above
      · rw [if_neg (by omega), if_neg (by omega), if_neg (by omega)]
      · rw [if_neg (by omega), if_pos rfl, if_pos (Nat.le_refl b), Nat.sub_self, List.getD_cons_zero]
      · obtain ⟨k, rfl⟩ : ∃ k, b = a + 1 + k := ⟨b - (a + 1), by omega⟩
        rw [if_pos (by omega), if_neg (by omega), if_pos (by omega), Nat.add_sub_cancel_left,
          show a + 1 + k - a = k + 1 by omega, List.getD_cons_succ]
    case isFalse beyond => rw [if_neg (by omega)]

theorem bigEndianWords_flatMap (bs : List (Byte × Byte)) :
    bigEndianWords (bs.flatMap fun b => [b.1, b.2]) = some (bs.map fun b => bigEndianWord b.1 b.2) := by
  induction bs with
  | nil => rfl
  | cons b bs ih =>
    show (bigEndianWords (bs.flatMap fun b => [b.1, b.2])).map (bigEndianWord b.1 b.2 :: ·) = _
    rw [ih]
    rfl

/-- Settles O58: the words by induction over the image, the images by the fold, the bytes two by two. -/
theorem imageLoading : Obligations.ImageLoading := by
  unfold Obligations.ImageLoading
  refine ⟨fun m img a canonical inMemory => Memory.read_load canonical _ _ inMemory,
    fun p gpr cond first more last => ⟨rfl, List.foldl_append⟩, fun a => rfl,
    fun hi lo => ⟨BitVec.extractLsb'_append_eq_left, BitVec.extractLsb'_append_eq_right⟩, fun bs o => ?_⟩
  rw [Image.ofBytes, bigEndianWords_flatMap]
  rfl

/-- Settles O59: a launch and the reset state are initial states, whose fields are the arguments or fixed. -/
theorem launchValues : Obligations.LaunchValues := by
  unfold Obligations.LaunchValues
  refine ⟨fun p gpr cond first more => ⟨rfl, rfl, rfl, rfl, rfl, rfl⟩, fun r => ?_, rfl, rfl, rfl, rfl, rfl⟩
  exact Vector.getElem_replicate r.isLt

end Sys2Proof.Machine
end
